-- ==== Sys2Proof/Word.lean ====
section
/-! DEFINITION. The words and addresses of the CORE (R6, R10, R50). -/

namespace Sys2Proof

/-- A cell, or a value in 16-bit accumulator form: bit 14 is the sign, bit 15 the overflow tag (R6, R10). -/
abbrev Word := BitVec 16

/-- An instruction word, and the value part of a cell (R50). -/
abbrev Word15 := BitVec 15

/-- A word address; the address space has 4096 of them (R31). -/
abbrev Addr := BitVec 12

/-- A 10-bit erasable operand field E (R50). -/
abbrev EField := BitVec 10

/-- A 9-bit I/O channel field CH (R50). -/
abbrev Channel := BitVec 9

end Sys2Proof
end

