-- ==== Sys2Proof/Machine/Alu.lean ====
section
/-! DEFINITION. The one's-complement ALU: the modified add, sign extension and conversions (R81 to R91). -/

namespace Sys2Proof.Machine

/-- `add`, the modified add: the 17-bit sum, with a carry out of bit 15 added back in (R81). -/
def add (x y : Word) : Word :=
  let s : BitVec 17 := x.setWidth 17 + y.setWidth 17
  if s.getLsbD 16 then s.setWidth 16 + 1#16 else s.setWidth 16

/-- A 15-bit word in 16-bit form: bit 14 copied into bit 15 (R10, R86). -/
def extend15 (w : Word15) : Word := w.signExtend 16

/-- `sext_16` (R10, R86): keeps bits 14:0 and copies bit 14 into bit 15. -/
def sext16 (v : Word) : Word := extend15 (v.setWidth 15)

/-- Bits 14:0 of a value, v[14:0]. -/
def low15 (v : Word) : Word15 := v.setWidth 15

/-- A program-counter value as a word: `zext_16` (R10, R18). -/
def zext16 (z : Addr) : Word := z.setWidth 16

/-- `val16`, the integer an accumulator-form value stands for (R83). -/
def val16 (v : Word) : Int :=
  if v.getLsbD 15 then -((~~~v).toNat : Int) else (v.toNat : Int)

/-- `to_signed` on a 15-bit word (R88). -/
def toSigned15 (x : Word15) : Int :=
  if x.getLsbD 14 then -((~~~x).toNat : Int) else (x.toNat : Int)

/-- `to_signed`: the low 15 bits as a one's-complement integer; bit 15 is ignored (R88). -/
def toSigned (v : Word) : Int := toSigned15 (low15 v)

/-- `from_signed16`, for -16383 to 16383; no result outside that range (R89, D14). -/
def fromSigned16 (n : Int) : Option Word :=
  if n < -16383 ∨ 16383 < n then none
  else if 0 ≤ n then some (BitVec.ofNat 16 n.toNat)
  else some (~~~(BitVec.ofNat 16 (-n).toNat))

/-- `from_signed32`, for the range of a product of two 15-bit magnitudes; no result outside it (R90). -/
def fromSigned32 (n : Int) : Option (BitVec 32) :=
  if n < -268435455 ∨ 268435455 < n then none
  else if 0 ≤ n then some (BitVec.ofNat 32 n.toNat)
  else some (~~~(BitVec.ofNat 32 (-n).toNat))

end Sys2Proof.Machine
end

