-- ==== Sys2Proof/Machine/Flags.lean ====
section
/-! DEFINITION. The overflow-deferred bookkeeper: classification, indicator and correction (R84, R85). The CORE has no
other flags (R26). -/

namespace Sys2Proof.Machine

/-- The three verdicts of `ovf` (R84). -/
inductive Overflow where
  | none
  | positive
  | negative
deriving DecidableEq, Repr

/-- `ovf`: the overflow tag (bit 15) against the sign (bit 14) (R84). -/
def ovf (v : Word) : Overflow :=
  match v.getLsbD 15, v.getLsbD 14 with
  | false, true => .positive
  | true, false => .negative
  | false, false => .none
  | true, true => .none

/-- `indicator`: +0, +1 or -1, the last in 16-bit form (R84). -/
def indicator : Overflow → Word
  | .none => 0x0000#16
  | .positive => 0x0001#16
  | .negative => 0xFFFE#16

/-- `correct`: when tag and sign disagree, bit 14 is flipped (R85). -/
def correct (v : Word) : Word :=
  if v.getLsbD 15 = v.getLsbD 14 then v else v ^^^ 0x4000#16

/-- A canonical 15-bit word in 16-bit form: bit 15 equals bit 14 (R12). -/
def canonical (v : Word) : Bool := v.getLsbD 15 == v.getLsbD 14

end Sys2Proof.Machine
end

