-- ==== Sys2Proof/Syntax.lean ====
section
/-! DEFINITION. The instructions: one constructor for each row of spec/opcode_table.json (R53, R54). -/

namespace Sys2Proof

/-- The instructions of the basic table (R53), then those of the extended table (R54). An `e` is a 10-bit erasable
operand, a `k` a 12-bit general operand, an `f` a 12-bit fixed target, a `ch` an I/O channel (R51). -/
inductive Instr where
  | tc (k : Addr)
  | ret
  | relint
  | inhint
  | extend
  | ccs (e : EField)
  | tcf (f : Addr)
  | das (e : EField)
  | lxch (e : EField)
  | incr (e : EField)
  | ads (e : EField)
  | ca (k : Addr)
  | cs (k : Addr)
  | index (e : EField)
  | resume
  | dxch (e : EField)
  | ts (e : EField)
  | xch (e : EField)
  | ad (k : Addr)
  | mask (k : Addr)
  | read (ch : Channel)
  | write (ch : Channel)
  | rand (ch : Channel)
  | wand (ch : Channel)
  | ror (ch : Channel)
  | wor (ch : Channel)
  | rxor (ch : Channel)
  | edrupt (ch : Channel)
  | dv (e : EField)
  | bzf (f : Addr)
  | msu (e : EField)
  | qxch (e : EField)
  | aug (e : EField)
  | dim (e : EField)
  | dca (k : Addr)
  | dcs (k : Addr)
  | indexK (k : Addr)
  | su (e : EField)
  | bzmf (f : Addr)
  | mp (k : Addr)
deriving DecidableEq, Repr

end Sys2Proof
end

