-- ==== Sys2Proof/WellFormed.lean ====
section
/-! DEFINITION. Which terms of Instr are instructions: the conditions the two tables put on the fields. -/

namespace Sys2Proof

/-- The field conditions of R53 and R54: TC's address is none of the implied literals 2, 3, 4 and 6 (R55), a fixed
target has a non-zero quarter-code (R51), the basic INDEX does not name 15, which is RESUME (R56). -/
def Instr.wf : Instr → Bool
  | .tc k => k != 2#12 && k != 3#12 && k != 4#12 && k != 6#12
  | .tcf f => decide (1024 ≤ f.toNat)
  | .bzf f => decide (1024 ≤ f.toNat)
  | .bzmf f => decide (1024 ≤ f.toNat)
  | .index e => e != 15#10
  | .ret => true
  | .relint => true
  | .inhint => true
  | .extend => true
  | .resume => true
  | .ccs _ => true
  | .das _ => true
  | .lxch _ => true
  | .incr _ => true
  | .ads _ => true
  | .ca _ => true
  | .cs _ => true
  | .dxch _ => true
  | .ts _ => true
  | .xch _ => true
  | .ad _ => true
  | .mask _ => true
  | .read _ => true
  | .write _ => true
  | .rand _ => true
  | .wand _ => true
  | .ror _ => true
  | .wor _ => true
  | .rxor _ => true
  | .edrupt _ => true
  | .dv _ => true
  | .msu _ => true
  | .qxch _ => true
  | .aug _ => true
  | .dim _ => true
  | .dca _ => true
  | .dcs _ => true
  | .indexK _ => true
  | .su _ => true
  | .mp _ => true

end Sys2Proof
end

