-- ==== Sys2Proof/Decode.lean ====
section
/-! DEFINITION. The instruction decoder (R50, R57) and the encoder of the same two tables (R53, R54). -/

namespace Sys2Proof

/-- OP, bits 14:12 (R50). -/
def fieldOp (w : Word15) : BitVec 3 := w.extractLsb' 12 3

/-- QC, the quarter-code, bits 11:10 (R50). -/
def fieldQc (w : Word15) : BitVec 2 := w.extractLsb' 10 2

/-- E, bits 9:0 (R50). -/
def fieldE (w : Word15) : EField := w.extractLsb' 0 10

/-- K, bits 11:0; for TCF, BZF and BZMF the fixed target F (R50). -/
def fieldK (w : Word15) : Addr := w.extractLsb' 0 12

/-- IOP, bits 11:9, of the extended opcode 0 (R50). -/
def fieldIop (w : Word15) : BitVec 3 := w.extractLsb' 9 3

/-- CH, bits 8:0, of the extended opcode 0 (R50). -/
def fieldCh (w : Word15) : Channel := w.extractLsb' 0 9

/-- Basic opcode 0: the implied literals, and TC for every other word (R55). -/
def decodeZero (k : Addr) : Instr :=
  if k = 2#12 then .ret
  else if k = 3#12 then .relint
  else if k = 4#12 then .inhint
  else if k = 6#12 then .extend
  else .tc k

/-- Extended opcode 0: the I/O channel instructions and EDRUPT, by IOP (R54, R160). -/
def decodeIo (iop : BitVec 3) (ch : Channel) : Instr :=
  if iop = 0#3 then .read ch
  else if iop = 1#3 then .write ch
  else if iop = 2#3 then .rand ch
  else if iop = 3#3 then .wand ch
  else if iop = 4#3 then .ror ch
  else if iop = 5#3 then .wor ch
  else if iop = 6#3 then .rxor ch
  else .edrupt ch

/-- The basic table (R53, R57 with ext = 0). -/
def decodeBasic (w : Word15) : Instr :=
  if fieldOp w = 0#3 then decodeZero (fieldK w)
  else if fieldOp w = 1#3 then
    if fieldQc w = 0#2 then .ccs (fieldE w) else .tcf (fieldK w)
  else if fieldOp w = 2#3 then
    if fieldQc w = 0#2 then .das (fieldE w)
    else if fieldQc w = 1#2 then .lxch (fieldE w)
    else if fieldQc w = 2#2 then .incr (fieldE w)
    else .ads (fieldE w)
  else if fieldOp w = 3#3 then .ca (fieldK w)
  else if fieldOp w = 4#3 then .cs (fieldK w)
  else if fieldOp w = 5#3 then
    if fieldQc w = 0#2 then
      if fieldE w = 15#10 then .resume else .index (fieldE w)
    else if fieldQc w = 1#2 then .dxch (fieldE w)
    else if fieldQc w = 2#2 then .ts (fieldE w)
    else .xch (fieldE w)
  else if fieldOp w = 6#3 then .ad (fieldK w)
  else .mask (fieldK w)

/-- The extended table (R54, R57 with ext = 1). -/
def decodeExtended (w : Word15) : Instr :=
  if fieldOp w = 0#3 then decodeIo (fieldIop w) (fieldCh w)
  else if fieldOp w = 1#3 then
    if fieldQc w = 0#2 then .dv (fieldE w) else .bzf (fieldK w)
  else if fieldOp w = 2#3 then
    if fieldQc w = 0#2 then .msu (fieldE w)
    else if fieldQc w = 1#2 then .qxch (fieldE w)
    else if fieldQc w = 2#2 then .aug (fieldE w)
    else .dim (fieldE w)
  else if fieldOp w = 3#3 then .dca (fieldK w)
  else if fieldOp w = 4#3 then .dcs (fieldK w)
  else if fieldOp w = 5#3 then .indexK (fieldK w)
  else if fieldOp w = 6#3 then
    if fieldQc w = 0#2 then .su (fieldE w) else .bzmf (fieldK w)
  else .mp (fieldK w)

/-- The decoder: EXT selects the table, and no word is undefined in either (R57, R60). The words the CORE does not
execute decode to the instruction they name; its meaning raises Unimplemented (R165). -/
def decode (ext : Bool) (w : Word15) : Instr :=
  if ext then decodeExtended w else decodeBasic w

/-- The table an instruction stands in: true for the extended one (R53, R54). -/
def Instr.extended : Instr → Bool
  | .tc _ => false
  | .ret => false
  | .relint => false
  | .inhint => false
  | .extend => false
  | .ccs _ => false
  | .tcf _ => false
  | .das _ => false
  | .lxch _ => false
  | .incr _ => false
  | .ads _ => false
  | .ca _ => false
  | .cs _ => false
  | .index _ => false
  | .resume => false
  | .dxch _ => false
  | .ts _ => false
  | .xch _ => false
  | .ad _ => false
  | .mask _ => false
  | .read _ => true
  | .write _ => true
  | .rand _ => true
  | .wand _ => true
  | .ror _ => true
  | .wor _ => true
  | .rxor _ => true
  | .edrupt _ => true
  | .dv _ => true
  | .bzf _ => true
  | .msu _ => true
  | .qxch _ => true
  | .aug _ => true
  | .dim _ => true
  | .dca _ => true
  | .dcs _ => true
  | .indexK _ => true
  | .su _ => true
  | .bzmf _ => true
  | .mp _ => true

/-- A word of K or F format: the opcode above a 12-bit address (R51). -/
def wordK (op : BitVec 3) (k : Addr) : Word15 := op ++ k

/-- A word of E format: the opcode and the quarter-code above a 10-bit address (R51). -/
def wordE (op : BitVec 3) (qc : BitVec 2) (e : EField) : Word15 := op ++ (qc ++ e : Addr)

/-- A word of IO format: opcode 0 and IOP above a channel (R51). -/
def wordIo (iop : BitVec 3) (ch : Channel) : Word15 := 0#3 ++ (iop ++ ch : Addr)

/-- The encoder: the word column of R53 and R54. -/
def encode : Instr → Word15
  | .tc k => wordK 0#3 k
  | .ret => 0x0002#15
  | .relint => 0x0003#15
  | .inhint => 0x0004#15
  | .extend => 0x0006#15
  | .ccs e => wordE 1#3 0#2 e
  | .tcf f => wordK 1#3 f
  | .das e => wordE 2#3 0#2 e
  | .lxch e => wordE 2#3 1#2 e
  | .incr e => wordE 2#3 2#2 e
  | .ads e => wordE 2#3 3#2 e
  | .ca k => wordK 3#3 k
  | .cs k => wordK 4#3 k
  | .index e => wordE 5#3 0#2 e
  | .resume => 0x500F#15
  | .dxch e => wordE 5#3 1#2 e
  | .ts e => wordE 5#3 2#2 e
  | .xch e => wordE 5#3 3#2 e
  | .ad k => wordK 6#3 k
  | .mask k => wordK 7#3 k
  | .read ch => wordIo 0#3 ch
  | .write ch => wordIo 1#3 ch
  | .rand ch => wordIo 2#3 ch
  | .wand ch => wordIo 3#3 ch
  | .ror ch => wordIo 4#3 ch
  | .wor ch => wordIo 5#3 ch
  | .rxor ch => wordIo 6#3 ch
  | .edrupt ch => wordIo 7#3 ch
  | .dv e => wordE 1#3 0#2 e
  | .bzf f => wordK 1#3 f
  | .msu e => wordE 2#3 0#2 e
  | .qxch e => wordE 2#3 1#2 e
  | .aug e => wordE 2#3 2#2 e
  | .dim e => wordE 2#3 3#2 e
  | .dca k => wordK 3#3 k
  | .dcs k => wordK 4#3 k
  | .indexK k => wordK 5#3 k
  | .su e => wordE 6#3 0#2 e
  | .bzmf f => wordK 6#3 f
  | .mp k => wordK 7#3 k

/-- The host's view of the decoder. Its words carry no extended-mode flag, so it reads the table that EXT = 0
selects, the one in force after reset (R57, R29; log 11). No instruction is longer than one word (R50). -/
def decodeTableWord (nbits w : Nat) : Option Instr :=
  if nbits ≤ 16 then some (decode false (BitVec.ofNat 15 w)) else none

end Sys2Proof
end

