-- ==== Sys2Proof/Config.lean ====
section
/-! DEFINITION. The configuration of R7 and R8: what is fixed for a whole run, and the one free value. -/

namespace Sys2Proof

/-- WIDE_REGS: the registers that keep the 16-bit form, the decided {A, Q} or the alternative {A, L} (R7, D3). -/
inductive WideRegs where
  | accQ
  | accL
deriving DecidableEq, Repr

/-- LINK_REG: the register TC writes and RETURN reads, the decided Q or the alternative L (R7, D2). -/
inductive LinkReg where
  | q
  | l
deriving DecidableEq, Repr

/-- NARROW_WRITE_MODE: how a write to a 15-bit location drops bit 15 (R7, R35, D7). -/
inductive NarrowWriteMode where
  | strip
  | correct
deriving DecidableEq, Repr

/-- INDEX_ADD: how the index bias is added to the fetched word (R7, R99, D8). -/
inductive IndexAdd where
  | modifiedAdd
  | binary16
deriving DecidableEq, Repr

/-- msuFn: the decided formula of R118, or some other total function of A and the operand (R117, D15). -/
inductive MsuFn where
  | reference
  | other
deriving DecidableEq, Repr

/-- The configuration parameters of R7 that R8 fixes for a whole run. -/
structure Config where
  erasableFirst : Nat
  fixedBase : Nat
  fixedSize : Nat
  wideRegs : WideRegs
  linkReg : LinkReg
  narrowWriteMode : NarrowWriteMode
  indexAdd : IndexAdd
  admitUndescribed : Bool
  dcsLowComplement : Bool
  mpHighSext : Bool
  msuFn : MsuFn
deriving DecidableEq, Repr

/-- The decided values of R7. -/
def Config.decided : Config where
  erasableFirst := 49
  fixedBase := 1024
  fixedSize := 1024
  wideRegs := .accQ
  linkReg := .q
  narrowWriteMode := .strip
  indexAdd := .modifiedAdd
  admitUndescribed := false
  dcsLowComplement := true
  mpHighSext := false
  msuFn := .reference

/-- What R8 calls a legal configuration. -/
def Config.legal (c : Config) : Bool :=
  (c.erasableFirst == 48 || c.erasableFirst == 49)
    && decide (1024 ≤ c.fixedBase)
    && decide (1 ≤ c.fixedSize) && decide (c.fixedSize ≤ 1024)
    && decide (c.fixedBase + c.fixedSize ≤ 4096)

/-- The free value of the model: the msuFn of a configuration that does not take the decided formula, "a total
function of the 16-bit A and the 16-bit operand and of nothing else" (R117; log 9). It has no body. -/
opaque Config.msuOther : Word → Word → Word

end Sys2Proof
end

