-- ==== Sys2Proof/Machine/State.lean ====
section
/-! DEFINITION. The state of the CORE (R13), its faults, and the state right after reset (R29). -/

namespace Sys2Proof.Machine

/-- The name that an Unimplemented fault carries (R165). The I/O names carry IOP and CH, as R57 passes them. -/
inductive UnimplementedName where
  | dv
  | resume
  | io (iop : BitVec 3) (ch : Channel)
  | lxch
  | dxch
  | xch
  | qxch
  | su
deriving DecidableEq, Repr

/-- The fault codes of the CORE (R163 to R169); `faultNumber` gives each its number (D41). They are recorded in FAULT; none ends a step of the model by itself. -/
inductive FaultCode where
  /-- An access to a reserved special location (R163). -/
  | reservedAddress
  /-- The decode of an undefined pattern: never raised, every word is defined (R164). -/
  | undefinedEncoding
  /-- The decode of a word that names an instruction the CORE does not implement (R165). -/
  | unimplemented (name : UnimplementedName)
  /-- A write to address 7 (R166). -/
  | writeToZero
  /-- A write to 1024 to 4095: never raised by an instruction (R167). -/
  | writeToFixed
  /-- A read of a fixed address outside the implemented bank (R168). -/
  | unimplementedBank
  /-- A double-word instruction whose field is 0 (R169). -/
  | addressUnderflow
deriving DecidableEq, Repr

/-- The fault record of R25 and R161. `word` is the 15-bit biased instruction word (log 5). -/
structure FaultRecord where
  code : FaultCode
  fetchAddr : Addr
  word : Option Word15
  addr : Option Addr
deriving DecidableEq, Repr

/-- The cells of erasable and fixed memory: pairs of a word address and the 16-bit cell there, addresses strictly
rising, no cell +0; an address that is not listed reads +0, the reset value of R29 (log 6). -/
abbrev Memory := List (Nat × Word)

/-- The state record of R13, and the configuration (`cfg`), which the host's step cannot take as an argument
(log 1). -/
structure State where
  cfg : Config
  a : Word
  l : Word
  q : Word
  bb : Word
  z : Addr
  mem : Memory
  ext : Bool
  bias : Word
  ie : Bool
  fault : Option FaultRecord
deriving DecidableEq, Repr

/-- Why a step has no next state. -/
inductive Fault where
  /-- Raised by `step` alone, on a machine whose FAULT is set: "no further cycle runs" (R25, R161). Safe: it is the
  stuck state the spec describes (log 4). -/
  | stopped (r : FaultRecord)
deriving DecidableEq, Repr

/-- Why an instruction has no meaning. -/
inductive Refusal where
  /-- An instruction the model has no meaning for. No arm of `exec` answers it. Safe. -/
  | notModelled (mnemonic : String)
deriving DecidableEq, Repr

/-- The reset values of R29 with fixed memory not yet loaded: everything zero but Z, which takes ENTRY_PC. -/
def State.initial (c : Config) (entryPc : Addr) : State where
  cfg := c
  a := 0#16
  l := 0#16
  q := 0#16
  bb := 0#16
  z := entryPc
  mem := []
  ext := false
  bias := 0#16
  ie := false
  fault := none

/-- The machine right after reset: the decided configuration of R7, the empty program image, and ENTRY_PC = 1024, which
the spec leaves open (D6; log 2, log 3). -/
def State.reset : State := State.initial Config.decided 1024#12

end Sys2Proof.Machine
end

