-- ==== Sys2Proof/Machine/Ops.lean ====
section
/-! DEFINITION. The operations every meaning is written over: memory cells, register updates, the start of a handler and
the taking of a fault. -/

namespace Sys2Proof.Machine

/-! ### Memory cells -/

/-- The cell at an address; an unlisted one holds +0 (R29). -/
def Memory.get : Memory → Nat → Word
  | [], _ => 0#16
  | c :: rest, a => if a = c.1 then c.2 else Memory.get rest a

/-- Put a value into a cell, keeping the canonical form. -/
def Memory.set : Memory → Nat → Word → Memory
  | [], a, v => if v = 0#16 then [] else [(a, v)]
  | c :: rest, a, v =>
    if a < c.1 then (if v = 0#16 then c :: rest else (a, v) :: c :: rest)
    else if a = c.1 then (if v = 0#16 then rest else (a, v) :: rest)
    else c :: Memory.set rest a v

/-- The canonical form: addresses strictly rising, no cell +0. -/
def Memory.wf : Memory → Bool
  | [] => true
  | c :: rest => c.2 != 0#16 && rest.all (fun d => decide (c.1 < d.1)) && Memory.wf rest

/-! ### Register updates -/

def State.setA (s : State) (v : Word) : State := { s with a := v }
def State.setL (s : State) (v : Word) : State := { s with l := v }
def State.setQ (s : State) (v : Word) : State := { s with q := v }
def State.setBb (s : State) (v : Word) : State := { s with bb := v }
def State.setZ (s : State) (v : Addr) : State := { s with z := v }
def State.setMem (s : State) (m : Memory) : State := { s with mem := m }
def State.setExt (s : State) (v : Bool) : State := { s with ext := v }
def State.setBias (s : State) (v : Word) : State := { s with bias := v }
def State.setIe (s : State) (v : Bool) : State := { s with ie := v }

/-- Z moved on by a skip, modulo 4096 (R100, R148). -/
def State.skip (s : State) (n : Addr) : State := s.setZ (s.z + n)

/-! ### The cycle around a handler, and faults -/

/-- Steps 3 and 4 of a cycle: Z incremented modulo 4096, BIAS and EXT cleared (R97, R100, R101). -/
def State.beginExec (s : State) : State := ((s.setZ (s.z + 1#12)).setBias 0#16).setExt false

/-- The number of a fault code, the spec's own numbering (R163 to R169, D41). -/
def faultNumber : FaultCode → Nat
  | .reservedAddress => 1
  | .undefinedEncoding => 2
  | .unimplemented _ => 3
  | .writeToZero => 4
  | .writeToFixed => 5
  | .unimplementedBank => 6
  | .addressUnderflow => 7

/-- Taking a fault: FAULT becomes the record. Nothing else is saved and control goes nowhere (R161, R173). -/
def State.takeFault (s : State) (r : FaultRecord) : State := { s with fault := some r }

/-- The verdict of an access the validator turns away: the code and the operand address it records (R161, R170). -/
structure AccessFault where
  code : FaultCode
  addr : Addr
deriving DecidableEq, Repr

/-- What a handler comes to: it completes, or an access faults and the writes made before it remain (R102). -/
inductive Handled where
  | done (s : State)
  | raised (f : AccessFault) (s : State)
deriving DecidableEq, Repr

/-- Steps 3 to 5 of the cycle for an instruction with a handler. A fault in the handler leaves the state as the handler
left it, and its record names the address fetched from and the biased word (R97, R102, R161; log 8). -/
def runHandler (i : Instr) (s : State) (body : State → Handled) : Host.Outcome State Fault Refusal :=
  match body s.beginExec with
  | .done t => .next t
  | .raised f t =>
    .next (t.takeFault
      { code := f.code, fetchAddr := s.z, word := some (encode i), addr := some f.addr })

/-- The Unimplemented verdict of the decoder: raised before Z is incremented, so that nothing but FAULT changes here
(R97, R165; step 1 has already cleared BIAS). -/
def raiseUnimplemented (i : Instr) (name : UnimplementedName) (s : State) :
    Host.Outcome State Fault Refusal :=
  .next (s.takeFault
    { code := .unimplemented name, fetchAddr := s.z, word := some (encode i), addr := none })

/-- `gate` of R57: the instruction runs when ADMIT_UNDESCRIBED is true and is Unimplemented when it is false (R9). -/
def gated (i : Instr) (name : UnimplementedName) (s : State) (body : State → Handled) :
    Host.Outcome State Fault Refusal :=
  if s.cfg.admitUndescribed then runHandler i s body else raiseUnimplemented i name s

/-- The AddressUnderflow check of a double-word instruction, before any access (R169). -/
def onPair (s : State) (low : Addr) (k : Handled) : Handled :=
  if low = 0#12 then .raised { code := .addressUnderflow, addr := 0#12 } s else k

end Sys2Proof.Machine
end

