-- ==== Sys2Proof/Machine/Operands.lean ====
section
/-! DEFINITION. The memory map: the address validator, Read, Write, Read16 and store_corrected (R32 to R36, R87), the
operand addresses, and the fetch of an instruction word (R98, R99). -/

namespace Sys2Proof.Machine

/-! ### The address validator -/

/-- The places the memory map distinguishes (R32, R33). -/
inductive Region where
  | regA
  | regL
  | regQ
  | regEb
  | regFb
  | regZ
  | regBb
  | zero
  | reserved
  | erasable
  | bank
  | noBank
deriving DecidableEq, Repr

/-- The validator, in the order of its checks (R32, R33). -/
def region (c : Config) (a : Addr) : Region :=
  if a = 0#12 then .regA
  else if a = 1#12 then .regL
  else if a = 2#12 then .regQ
  else if a = 3#12 then .regEb
  else if a = 4#12 then .regFb
  else if a = 5#12 then .regZ
  else if a = 6#12 then .regBb
  else if a = 7#12 then .zero
  else if a.toNat < c.erasableFirst then .reserved
  else if a.toNat ≤ 1023 then .erasable
  else if c.fixedBase ≤ a.toNat ∧ a.toNat < c.fixedBase + c.fixedSize then .bank
  else .noBank

/-- Whether a location keeps the 16-bit accumulator form: A, and the other member of WIDE_REGS (R14, R20). -/
def wide (c : Config) (a : Addr) : Bool :=
  a == 0#12 || (match c.wideRegs with
    | .accQ => a == 2#12
    | .accL => a == 1#12)

/-- `narrow`, the width enforcement of a write to a 15-bit location (R35). -/
def narrow (c : Config) (v : Word) : Word :=
  match c.narrowWriteMode with
  | .strip => sext16 v
  | .correct => correct v

/-! ### The views of the bank cell -/

/-- EB as address 3 shows it: bits 2:0 of the cell in bits 10:8 (R17). -/
def readEb (bb : Word) : Word := (bb &&& 0x0007#16) <<< 8

/-- FB as address 4 shows it: bits 14:10 (R17). -/
def readFb (bb : Word) : Word := bb &&& 0x7C00#16

/-- BB as address 6 shows it: both fields (R17). -/
def readBb (bb : Word) : Word := bb &&& 0x7C07#16

/-- The cell after a write to address 3: EB from bits 10:8 of the value (R17). -/
def writeEb (bb v : Word) : Word := (bb &&& 0x7C00#16) ||| ((v >>> 8) &&& 0x0007#16)

/-- The cell after a write to address 4: FB from bits 14:10 of the value (R17). -/
def writeFb (bb v : Word) : Word := (v &&& 0x7C00#16) ||| (bb &&& 0x0007#16)

/-- The cell after a write to address 6 (R17). -/
def writeBb (v : Word) : Word := v &&& 0x7C07#16

/-! ### Read, Write, Read16, store_corrected -/

/-- `Read`, the memory-map read; it has no side effect (R33). -/
def memRead (s : State) (a : Addr) : Except AccessFault Word :=
  match region s.cfg a with
  | .regA => .ok s.a
  | .regL => .ok s.l
  | .regQ => .ok s.q
  | .regEb => .ok (readEb s.bb)
  | .regFb => .ok (readFb s.bb)
  | .regZ => .ok (zext16 s.z)
  | .regBb => .ok (readBb s.bb)
  | .zero => .ok 0#16
  | .reserved => .error { code := .reservedAddress, addr := a }
  | .erasable => .ok (s.mem.get a.toNat)
  | .bank => .ok (s.mem.get a.toNat)
  | .noBank => .error { code := .unimplementedBank, addr := a }

/-- `Write`, the memory-map write (R34). -/
def memWrite (s : State) (a : Addr) (v : Word) : Except AccessFault State :=
  match region s.cfg a with
  | .regA => .ok (s.setA v)
  | .regL => .ok (s.setL (if wide s.cfg a then v else narrow s.cfg v))
  | .regQ => .ok (s.setQ (if wide s.cfg a then v else narrow s.cfg v))
  | .regEb => .ok (s.setBb (writeEb s.bb v))
  | .regFb => .ok (s.setBb (writeFb s.bb v))
  | .regZ => .ok (s.setZ (v.setWidth 12))
  | .regBb => .ok (s.setBb (writeBb v))
  | .zero => .error { code := .writeToZero, addr := a }
  | .reserved => .error { code := .reservedAddress, addr := a }
  | .erasable => .ok (s.setMem (s.mem.set a.toNat (narrow s.cfg v)))
  | .bank => .error { code := .writeToFixed, addr := a }
  | .noBank => .error { code := .writeToFixed, addr := a }

/-- `Read16`, the accumulator-form read: raw for a wide location, sign-extended for every other (R36). -/
def read16 (s : State) (a : Addr) : Except AccessFault Word :=
  match memRead s a with
  | .error f => .error f
  | .ok v => .ok (if wide s.cfg a then v else sext16 v)

/-- What `store_corrected` writes at an address: the raw value at a wide one, the corrected value at any other (R87). -/
def storedForm (c : Config) (a : Addr) (v : Word) : Word := if wide c a then v else correct v

/-- The write of `store_corrected`; the indicator it reports is `indicator (ovf v)`, whatever the destination (R87). -/
def storeCorrected (s : State) (v : Word) (a : Addr) : Except AccessFault State :=
  memWrite s a (storedForm s.cfg a v)

/-! ### The accesses of a handler -/

/-- Go on with what `Read16` gives, or stop at its fault (R102). -/
def onRead16 (s : State) (a : Addr) (k : Word → Handled) : Handled :=
  match read16 s a with
  | .ok v => k v
  | .error f => .raised f s

/-- Go on with what `Read` gives, or stop at its fault (R102). -/
def onRead (s : State) (a : Addr) (k : Word → Handled) : Handled :=
  match memRead s a with
  | .ok v => k v
  | .error f => .raised f s

/-- Go on in the state after a `Write`, or stop at its fault with the state as it was (R102). -/
def onWrite (s : State) (a : Addr) (v : Word) (k : State → Handled) : Handled :=
  match memWrite s a v with
  | .ok t => k t
  | .error f => .raised f s

/-- Go on in the state after `store_corrected`, or stop at its fault with the state as it was (R87, R102). -/
def onStoreCorrected (s : State) (v : Word) (a : Addr) (k : State → Handled) : Handled :=
  match storeCorrected s v a with
  | .ok t => k t
  | .error f => .raised f s

/-! ### Operand addresses -/

/-- The address an E field names: unsigned, without scaling (R52). -/
def eAddr (e : EField) : Addr := e.setWidth 12

/-- The address of the high word of a double-word operand: field - 1 (R52). -/
def highAddr (low : Addr) : Addr := low - 1#12

/-- Address 1, L, the low half of the double-length accumulator (R15). -/
def lAddr : Addr := 1#12

/-- Address 2, Q (R16). -/
def qAddr : Addr := 2#12

/-- The address of LINK_REG (R7). -/
def linkAddr (c : Config) : Addr :=
  match c.linkReg with
  | .q => qAddr
  | .l => lAddr

/-! ### Instruction fetch -/

/-- `biasAdd`, the application of the index bias to the fetched word (R99). -/
def biasAdd (c : Config) (raw bias : Word) : Word :=
  match c.indexAdd with
  | .modifiedAdd => add raw bias
  | .binary16 => raw + bias

/-- The fetch: the word at Z through Read16, biased; bits 14:0 reach the decoder (R97 step 1, R98). -/
def fetch (s : State) : Except AccessFault Word15 :=
  match read16 s s.z with
  | .error f => .error f
  | .ok raw => .ok (low15 (biasAdd s.cfg raw s.bias))

/-- A fault raised by the fetch: nothing but FAULT changes, and the record has no word (R98, R161). -/
def takeFetchFault (s : State) (f : AccessFault) : State :=
  s.takeFault { code := f.code, fetchAddr := s.z, word := none, addr := some f.addr }

end Sys2Proof.Machine
end

