-- ==== Sys2Proof/Machine/Arithmetic.lean ====
section
/-! DEFINITION. The arithmetic and logic instructions (42_arithmetic.md, R106 to R125). -/

namespace Sys2Proof.Machine

/-- AD K: A takes the modified add of A and the operand (R108). -/
def execAd (k : Addr) (s : State) : Host.Outcome State Fault Refusal :=
  runHandler (.ad k) s fun t =>
    onRead16 t k fun m => .done (t.setA (add t.a m))

/-- SU E: A takes the modified add of A and the complemented operand, when admitted (R109). -/
def execSu (e : EField) (s : State) : Host.Outcome State Fault Refusal :=
  gated (.su e) .su s fun t =>
    onRead16 t (eAddr e) fun m => .done (t.setA (add t.a (~~~m)))

/-- ADS E: the sum goes raw to A and then overflow-corrected to E; the indicator is discarded (R110). -/
def execAds (e : EField) (s : State) : Host.Outcome State Fault Refusal :=
  runHandler (.ads e) s fun t =>
    onRead16 t (eAddr e) fun m =>
      onStoreCorrected (t.setA (add t.a m)) (add t.a m) (eAddr e) fun u => .done u

/-- INCR E: the operand plus one, through Write (R113). -/
def execIncr (e : EField) (s : State) : Host.Outcome State Fault Refusal :=
  runHandler (.incr e) s fun t =>
    onRead16 t (eAddr e) fun v =>
      onWrite t (eAddr e) (add v 0x0001#16) fun u => .done u

/-- One step away from zero: plus one, or minus one when bit 15 is set (R115). -/
def augmented (v : Word) : Word :=
  add v (if v.getLsbD 15 then 0xFFFE#16 else 0x0001#16)

/-- AUG E (R115). -/
def execAug (e : EField) (s : State) : Host.Outcome State Fault Refusal :=
  runHandler (.aug e) s fun t =>
    onRead16 t (eAddr e) fun v =>
      onWrite t (eAddr e) (augmented v) fun u => .done u

/-- One step toward zero; both zeros stay (R116). -/
def diminished (v : Word) : Word :=
  if v = 0x0000#16 ∨ v = 0xFFFF#16 then v
  else if v.getLsbD 15 then add v 0x0001#16
  else add v 0xFFFE#16

/-- DIM E; the write is made even when the value is unchanged (R116). -/
def execDim (e : EField) (s : State) : Host.Outcome State Fault Refusal :=
  runHandler (.dim e) s fun t =>
    onRead16 t (eAddr e) fun v =>
      onWrite t (eAddr e) (diminished v) fun u => .done u

/-- The decided msuFn: the 15-bit two's-complement difference operand minus corrected A, converted to one's
complement (R118). -/
def msuReference (a m : Word) : Word :=
  let d : Word15 := low15 m - low15 (correct a)
  extend15 (if d.getLsbD 14 then d - 1#15 else d)

/-- `msuFn` of the configuration (R117, R118). -/
def msuResult (c : Config) (a m : Word) : Word :=
  match c.msuFn with
  | .reference => msuReference a m
  | .other => Config.msuOther a m

/-- MSU E (R118). -/
def execMsu (e : EField) (s : State) : Host.Outcome State Fault Refusal :=
  runHandler (.msu e) s fun t =>
    onRead16 t (eAddr e) fun m => .done (t.setA (msuResult t.cfg t.a m))

/-- The sign MP attaches: the product's, and for a zero product minus only when the corrected A is a zero and the
operand's sign differs from its (R119, R120). `ac` is the corrected A. -/
def mpNegative (ac m : Word) : Bool :=
  let p := toSigned ac * toSigned m
  if p ≠ 0 then decide (p < 0)
  else decide (toSigned ac = 0) && (ac.getLsbD 14 != m.getLsbD 14)

/-- The high half of the magnitude of MP's product, bits 27:14, with the sign attached (R119). -/
def mpHigh (ac m : Word) : Word15 :=
  let h := BitVec.ofNat 15 ((toSigned ac * toSigned m).natAbs / 2 ^ 14 % 2 ^ 14)
  if mpNegative ac m then ~~~h else h

/-- The low half of the magnitude of MP's product, bits 13:0, with the sign attached (R119). -/
def mpLow (ac m : Word) : Word15 :=
  let h := BitVec.ofNat 15 ((toSigned ac * toSigned m).natAbs % 2 ^ 14)
  if mpNegative ac m then ~~~h else h

/-- The word MP puts into A: the high half, sign-extended only under MP_HIGH_SEXT (R119, R122). -/
def mpAccumulator (c : Config) (ac m : Word) : Word :=
  if c.mpHighSext then extend15 (mpHigh ac m) else (mpHigh ac m).setWidth 16

/-- MP K: L takes the low half through Write, then A the high half (R119). The operand is the low 15 bits of Read16, as
the pseudocode of R119 has it, for MP A too: with an overflow pending in A the corner case `MP A squares the corrected A`
gives another product, and that the pseudocode is followed is the model's choice (DESIGN CHOICE, unsafe; log 21). -/
def execMp (k : Addr) (s : State) : Host.Outcome State Fault Refusal :=
  runHandler (.mp k) s fun t =>
    onRead16 t k fun m =>
      onWrite t lAddr (extend15 (mpLow (correct t.a) m)) fun u =>
        .done (u.setA (mpAccumulator t.cfg (correct t.a) m))

/-- DAS E: low words first, their overflow carried into the high words; then A takes the high indicator and L +0
(R121). -/
def execDas (e : EField) (s : State) : Host.Outcome State Fault Refusal :=
  runHandler (.das e) s fun t =>
    onPair t (eAddr e) <|
      onRead16 t lAddr fun l =>
      onRead16 t (eAddr e) fun m =>
      onStoreCorrected t (add l m) (eAddr e) fun u =>
      onRead16 u (highAddr (eAddr e)) fun h =>
        let high := add (add u.a h) (indicator (ovf (add l m)))
        onStoreCorrected u high (highAddr (eAddr e)) fun v =>
        onWrite (v.setA (indicator (ovf high))) lAddr 0#16 fun x => .done x

/-- DV E is not implemented: Unimplemented(DV) at decode (R123). -/
def execDv (e : EField) (s : State) : Host.Outcome State Fault Refusal :=
  raiseUnimplemented (.dv e) .dv s

/-- What MASK puts into A: the raw 16-bit AND with a wide operand, otherwise the 15-bit AND of the corrected A,
sign-extended (R124). -/
def masked (c : Config) (k : Addr) (a m : Word) : Word :=
  if wide c k then a &&& m else extend15 (low15 (correct a) &&& low15 m)

/-- MASK K (R124). -/
def execMask (k : Addr) (s : State) : Host.Outcome State Fault Refusal :=
  runHandler (.mask k) s fun t =>
    onRead16 t k fun m => .done (t.setA (masked t.cfg k t.a m))

end Sys2Proof.Machine
end

