-- ==== Sys2Proof/Machine/Control.lean ====
section
/-! DEFINITION. Control transfer, index and the implied instructions (44_control.md, R141 to R160). -/

namespace Sys2Proof.Machine

/-- TC K: LINK_REG takes the return address, Z the target (R141). -/
def execTc (k : Addr) (s : State) : Host.Outcome State Fault Refusal :=
  runHandler (.tc k) s fun t =>
    onWrite t (linkAddr t.cfg) (zext16 t.z) fun u => .done (u.setZ k)

/-- TCF F (R142). -/
def execTcf (f : Addr) (s : State) : Host.Outcome State Fault Refusal :=
  runHandler (.tcf f) s fun t => .done (t.setZ f)

/-- The diminished absolute value CCS puts into A, with the sign taken from bit 15 (R143). -/
def ccsMagnitude (v : Word) : Word :=
  let mag := if v.getLsbD 15 then ~~~v else v
  if mag = 0#16 then 0#16 else mag - 1#16

/-- How many more words CCS skips: 1 for +0, 3 for -0, 2 for a negative, 0 for a positive value (R143). -/
def ccsSkip (v : Word) : Addr :=
  if v = 0x0000#16 then 1#12
  else if v = 0xFFFF#16 then 3#12
  else if v.getLsbD 15 then 2#12
  else 0#12

/-- CCS E (R143). -/
def execCcs (e : EField) (s : State) : Host.Outcome State Fault Refusal :=
  runHandler (.ccs e) s fun t =>
    onRead16 t (eAddr e) fun v => .done ((t.setA (ccsMagnitude v)).skip (ccsSkip v))

/-- BZF F: transfer when A is +0 or -0, on all 16 bits (R145). -/
def execBzf (f : Addr) (s : State) : Host.Outcome State Fault Refusal :=
  runHandler (.bzf f) s fun t =>
    if t.a = 0x0000#16 ∨ t.a = 0xFFFF#16 then .done (t.setZ f) else .done t

/-- BZMF F: transfer when A is +0 or has bit 15 set (R146). -/
def execBzmf (f : Addr) (s : State) : Host.Outcome State Fault Refusal :=
  runHandler (.bzmf f) s fun t =>
    if t.a = 0x0000#16 ∨ t.a.getLsbD 15 = true then .done (t.setZ f) else .done t

/-- INDEX E, the basic form: BIAS takes the operand, EXT stays 0 (R152). -/
def execIndex (e : EField) (s : State) : Host.Outcome State Fault Refusal :=
  runHandler (.index e) s fun t =>
    onRead16 t (eAddr e) fun m => .done (t.setBias m)

/-- INDEX K, the extended form: BIAS takes the operand and EXT is set again (R153). -/
def execIndexK (k : Addr) (s : State) : Host.Outcome State Fault Refusal :=
  runHandler (.indexK k) s fun t =>
    onRead16 t k fun m => .done ((t.setBias m).setExt true)

/-- RETURN: Z takes the low 12 bits of LINK_REG, which is unchanged (R155). -/
def execReturn (s : State) : Host.Outcome State Fault Refusal :=
  runHandler .ret s fun t =>
    onRead t (linkAddr t.cfg) fun v => .done (t.setZ (v.setWidth 12))

/-- EXTEND (R156). -/
def execExtend (s : State) : Host.Outcome State Fault Refusal :=
  runHandler .extend s fun t => .done (t.setExt true)

/-- RELINT (R157). -/
def execRelint (s : State) : Host.Outcome State Fault Refusal :=
  runHandler .relint s fun t => .done (t.setIe true)

/-- INHINT (R158). -/
def execInhint (s : State) : Host.Outcome State Fault Refusal :=
  runHandler .inhint s fun t => .done (t.setIe false)

/-- RESUME: Unimplemented(RESUME) at decode (R159). -/
def execResume (s : State) : Host.Outcome State Fault Refusal :=
  raiseUnimplemented .resume .resume s

/-- READ: Unimplemented at decode (R160). -/
def execRead (ch : Channel) (s : State) : Host.Outcome State Fault Refusal :=
  raiseUnimplemented (.read ch) (.io 0#3 ch) s

/-- WRITE: Unimplemented at decode (R160). -/
def execWrite (ch : Channel) (s : State) : Host.Outcome State Fault Refusal :=
  raiseUnimplemented (.write ch) (.io 1#3 ch) s

/-- RAND: Unimplemented at decode (R160). -/
def execRand (ch : Channel) (s : State) : Host.Outcome State Fault Refusal :=
  raiseUnimplemented (.rand ch) (.io 2#3 ch) s

/-- WAND: Unimplemented at decode (R160). -/
def execWand (ch : Channel) (s : State) : Host.Outcome State Fault Refusal :=
  raiseUnimplemented (.wand ch) (.io 3#3 ch) s

/-- ROR: Unimplemented at decode (R160). -/
def execRor (ch : Channel) (s : State) : Host.Outcome State Fault Refusal :=
  raiseUnimplemented (.ror ch) (.io 4#3 ch) s

/-- WOR: Unimplemented at decode (R160). -/
def execWor (ch : Channel) (s : State) : Host.Outcome State Fault Refusal :=
  raiseUnimplemented (.wor ch) (.io 5#3 ch) s

/-- RXOR: Unimplemented at decode (R160). -/
def execRxor (ch : Channel) (s : State) : Host.Outcome State Fault Refusal :=
  raiseUnimplemented (.rxor ch) (.io 6#3 ch) s

/-- EDRUPT: Unimplemented at decode (R160). -/
def execEdrupt (ch : Channel) (s : State) : Host.Outcome State Fault Refusal :=
  raiseUnimplemented (.edrupt ch) (.io 7#3 ch) s

end Sys2Proof.Machine
end

