-- ==== Sys2Proof/Machine/Transfer.lean ====
section
/-! DEFINITION. The load, store and exchange instructions (43_transfer.md, R126 to R140). -/

namespace Sys2Proof.Machine

/-- CA K: A takes the operand in 16-bit form (R126). -/
def execCa (k : Addr) (s : State) : Host.Outcome State Fault Refusal :=
  runHandler (.ca k) s fun t =>
    onRead16 t k fun m => .done (t.setA m)

/-- CS K: A takes the complement of the operand (R127). -/
def execCs (k : Addr) (s : State) : Host.Outcome State Fault Refusal :=
  runHandler (.cs k) s fun t =>
    onRead16 t k fun m => .done (t.setA (~~~m))

/-- DCA K: L takes the word at K, then A the word at K - 1 (R128, R129). -/
def execDca (k : Addr) (s : State) : Host.Outcome State Fault Refusal :=
  runHandler (.dca k) s fun t =>
    onPair t k <|
      onRead16 t k fun lo =>
      onWrite t lAddr lo fun u =>
      onRead16 u (highAddr k) fun hi => .done (u.setA hi)

/-- The low word DCS loads: complemented under DCS_LOW_COMPLEMENT (R130). -/
def dcsLow (c : Config) (lo : Word) : Word := if c.dcsLowComplement then ~~~lo else lo

/-- DCS K: as DCA, with the high word complemented and the low word as the configuration says (R130). -/
def execDcs (k : Addr) (s : State) : Host.Outcome State Fault Refusal :=
  runHandler (.dcs k) s fun t =>
    onPair t k <|
      onRead16 t k fun lo =>
      onWrite t lAddr (dcsLow t.cfg lo) fun u =>
      onRead16 u (highAddr k) fun hi => .done (u.setA (~~~hi))

/-- TS E: the overflow-corrected store; on overflow the next instruction is skipped and, unless E is A, A takes the
indicator (R132). -/
def execTs (e : EField) (s : State) : Host.Outcome State Fault Refusal :=
  runHandler (.ts e) s fun t =>
    onStoreCorrected t t.a (eAddr e) fun u =>
      if ovf t.a = .none then .done u
      else if e = 0#10 then .done (u.skip 1#12)
      else .done ((u.skip 1#12).setA (indicator (ovf t.a)))

/-- XCH E, when admitted (R135). -/
def execXch (e : EField) (s : State) : Host.Outcome State Fault Refusal :=
  gated (.xch e) .xch s fun t =>
    onRead16 t (eAddr e) fun m =>
      onStoreCorrected t t.a (eAddr e) fun u => .done (u.setA m)

/-- LXCH E, when admitted (R136). -/
def execLxch (e : EField) (s : State) : Host.Outcome State Fault Refusal :=
  gated (.lxch e) .lxch s fun t =>
    onRead16 t (eAddr e) fun m =>
      onRead16 t lAddr fun l =>
      onWrite t (eAddr e) l fun u =>
      onWrite u lAddr m fun v => .done v

/-- QXCH E, when admitted (R137). -/
def execQxch (e : EField) (s : State) : Host.Outcome State Fault Refusal :=
  gated (.qxch e) .qxch s fun t =>
    onRead16 t (eAddr e) fun m =>
      onRead16 t qAddr fun q =>
      onStoreCorrected t q (eAddr e) fun u =>
      onWrite u qAddr m fun v => .done v

/-- DXCH E, when admitted: L with the low word, then A with the high word (R138). -/
def execDxch (e : EField) (s : State) : Host.Outcome State Fault Refusal :=
  gated (.dxch e) .dxch s fun t =>
    onPair t (eAddr e) <|
      onRead16 t (eAddr e) fun lo =>
      onRead16 t lAddr fun l =>
      onWrite t (eAddr e) l fun u =>
      onWrite u lAddr lo fun v =>
      onRead16 v (highAddr (eAddr e)) fun hi =>
      onStoreCorrected v v.a (highAddr (eAddr e)) fun x => .done (x.setA hi)

end Sys2Proof.Machine
end

