-- ==== Sys2Proof/Machine/Dispatch.lean ====
section
/-! DEFINITION. The dispatch of step 5: one arm for each instruction (R97). -/

namespace Sys2Proof.Machine

def exec (i : Instr) (s : State) : Host.Outcome State Fault Refusal :=
  match i with
  | .tc k => Sys2Proof.Machine.execTc k s
  | .ret => Sys2Proof.Machine.execReturn s
  | .relint => Sys2Proof.Machine.execRelint s
  | .inhint => Sys2Proof.Machine.execInhint s
  | .extend => Sys2Proof.Machine.execExtend s
  | .ccs e => Sys2Proof.Machine.execCcs e s
  | .tcf f => Sys2Proof.Machine.execTcf f s
  | .das e => Sys2Proof.Machine.execDas e s
  | .lxch e => Sys2Proof.Machine.execLxch e s
  | .incr e => Sys2Proof.Machine.execIncr e s
  | .ads e => Sys2Proof.Machine.execAds e s
  | .ca k => Sys2Proof.Machine.execCa k s
  | .cs k => Sys2Proof.Machine.execCs k s
  | .index e => Sys2Proof.Machine.execIndex e s
  | .resume => Sys2Proof.Machine.execResume s
  | .dxch e => Sys2Proof.Machine.execDxch e s
  | .ts e => Sys2Proof.Machine.execTs e s
  | .xch e => Sys2Proof.Machine.execXch e s
  | .ad k => Sys2Proof.Machine.execAd k s
  | .mask k => Sys2Proof.Machine.execMask k s
  | .read ch => Sys2Proof.Machine.execRead ch s
  | .write ch => Sys2Proof.Machine.execWrite ch s
  | .rand ch => Sys2Proof.Machine.execRand ch s
  | .wand ch => Sys2Proof.Machine.execWand ch s
  | .ror ch => Sys2Proof.Machine.execRor ch s
  | .wor ch => Sys2Proof.Machine.execWor ch s
  | .rxor ch => Sys2Proof.Machine.execRxor ch s
  | .edrupt ch => Sys2Proof.Machine.execEdrupt ch s
  | .dv e => Sys2Proof.Machine.execDv e s
  | .bzf f => Sys2Proof.Machine.execBzf f s
  | .msu e => Sys2Proof.Machine.execMsu e s
  | .qxch e => Sys2Proof.Machine.execQxch e s
  | .aug e => Sys2Proof.Machine.execAug e s
  | .dim e => Sys2Proof.Machine.execDim e s
  | .dca k => Sys2Proof.Machine.execDca k s
  | .dcs k => Sys2Proof.Machine.execDcs k s
  | .indexK k => Sys2Proof.Machine.execIndexK k s
  | .su e => Sys2Proof.Machine.execSu e s
  | .bzmf f => Sys2Proof.Machine.execBzmf f s
  | .mp k => Sys2Proof.Machine.execMp k s

end Sys2Proof.Machine
end

