-- ==== Sys2Proof/Machine/Step.lean ====
section
/-! DEFINITION. One cycle (R97), several (R177), and the placing of an instruction where the next cycle fetches it. -/

namespace Sys2Proof.Machine

/-- One cycle. It runs only while FAULT is none; a stopped machine has no next state (R25, R161; log 4). A fetch that
faults leaves its record; otherwise step 1 clears BIAS and the decoded instruction runs (R97, R98). -/
def step (s : State) : Host.Outcome State Fault Refusal :=
  match s.fault with
  | some r => .fault (.stopped r)
  | none =>
    match fetch s with
    | .error f => .next (takeFetchFault s f)
    | .ok w => exec (decode s.ext w) (s.setBias 0#16)

/-- The debugger's `step(n)`: n cycles, fewer if a fault stops the machine (R177). -/
def stepN : Nat → State → State
  | 0, s => s
  | n + 1, s =>
    match step s with
    | .next t => stepN n t
    | .fault _ => s
    | .refused _ => s

/-- A run that ends at the first cycle whose fetch address is `stop` while the machine is not stopped by a fault, tried
for at most the given number of cycles (R105). It is the run of `runUntil` (Ports.lean) without host writes. -/
def runTo (stop : Addr) : Nat → State → Option State
  | 0, s => if s.fault = none ∧ s.z = stop then some s else none
  | n + 1, s =>
    if s.fault = none ∧ s.z = stop then some s
    else
      match step s with
      | .next t => runTo stop n t
      | .fault _ => none
      | .refused _ => none

/-- Where an instruction can be placed for the next cycle to fetch it: Z if it names an erasable or a fixed cell,
otherwise the first cell of the fixed bank. -/
def fetchPlace (s : State) : Addr :=
  match region s.cfg s.z with
  | .erasable => s.z
  | .bank => s.z
  | _ => BitVec.ofNat 12 s.cfg.fixedBase

/-- The state with an instruction word where the next cycle fetches it, EXT = 0 (the table `decodeTableWord` reads),
no bias and no fault, so that the next cycle runs it (log 12). The word is stored in 15-bit form, as the loader stores
one (R183). Longer words do not exist (R50). -/
def State.withFetchWord (s : State) (_nbits w : Nat) : State :=
  { s with
    z := fetchPlace s
    mem := s.mem.set (fetchPlace s).toNat (extend15 (BitVec.ofNat 15 w))
    ext := false
    bias := 0#16
    fault := none }

end Sys2Proof.Machine
end

