-- ==== Sys2Proof/Machine/Ports.lean ====
section
/-! DEFINITION. What the outside does to the machine: reset with a program image (R181, R183), the front end's writes
between cycles (R48, R178), and the observation port (R177). -/

namespace Sys2Proof.Machine

/-- The image words put into successive cells from `a` on, each in 15-bit form (R183). -/
def loadWords : Memory → Nat → List Word → Memory
  | m, _, [] => m
  | m, a, w :: rest => loadWords (m.set a (sext16 w)) (a + 1) rest

/-- `Reset(image, ENTRY_PC)`: every piece of state at its reset value, the fixed bank loaded and +0 past the image's
end; an image longer than the bank is refused (R181, R183). -/
def boot (c : Config) (image : List Word) (entryPc : Addr) : Option State :=
  if c.fixedSize < image.length then none
  else some ((State.initial c entryPc).setMem (loadWords [] c.fixedBase image))

/-- A write of the hardware front end, between two cycles: through Write, and only to an erasable address of
HOST_INPUT_SET; every other one is refused, as is one to a machine stopped by a fault (R48, R178; log 15). That the
boundary before a run's first cycle takes one as well is the model's choice (log 20). -/
def hostWrite (inputs : List Addr) (s : State) (a : Addr) (v : Word) : Option State :=
  if s.fault = none ∧ a ∈ inputs ∧ region s.cfg a = .erasable then
    match memWrite s a v with
    | .ok t => some t
    | .error _ => none
  else none

/-- What happens to the machine in a run (R105): a cycle, or a front-end write between cycles. -/
inductive Event where
  | cycle
  | hostWrite (a : Addr) (v : Word)
deriving DecidableEq, Repr

/-- A run in which the listed events happen in their order, and the state it ends in; `none` when a write is refused or a
cycle faults, since a state with a fault is never a final one (R105, R193, D20). Host writes may stand anywhere in the list:
R48, R105 and R178 speak of the boundary between two cycles only, and that a write may also come before the first cycle,
on the state boot gives, and after the last one is the model's choice (DESIGN CHOICE, log 20). -/
def runEvents (inputs : List Addr) : List Event → State → Option State
  | [], s => if s.fault = none then some s else none
  | .cycle :: rest, s =>
    match step s with
    | .next t => runEvents inputs rest t
    | .fault _ => none
    | .refused _ => none
  | .hostWrite a v :: rest, s =>
    match hostWrite inputs s a v with
    | some t => runEvents inputs rest t
    | none => none

/-- How a claim says where a run ends: after a number of cycles, or at the first cycle whose fetch address is the stop
address (R105, D25). -/
inductive RunEnd where
  | afterCycles (n : Nat)
  | atFetch (stop : Addr)
deriving DecidableEq, Repr

/-- Whether a run that has made `done` cycles, none of them faulting, ends in the state `s` before its next fetch. -/
def endsHere (ending : RunEnd) (done : Nat) (s : State) : Bool :=
  decide (s.fault = none) &&
    match ending with
    | .afterCycles n => decide (done = n)
    | .atFetch stop => decide (s.z = stop)

/-- A run that has made `done` cycles and goes on with the listed events, host writes among them, up to the end the claim
names: it ends where the next cycle would be the one past the count, or the first to fetch at the stop address, and the
events after that do not matter (R105). `none` when the events run out before that, a write is refused, or a cycle faults:
a state with a fault is never a final one (D20). Where host writes may stand is as in `runEvents` (log 20). -/
def runUntil (inputs : List Addr) (ending : RunEnd) : Nat → List Event → State → Option State
  | done, [], s => if endsHere ending done s then some s else none
  | done, .cycle :: rest, s =>
    if endsHere ending done s then some s
    else
      match step s with
      | .next t => runUntil inputs ending (done + 1) rest t
      | .fault _ => none
      | .refused _ => none
  | done, .hostWrite a v :: rest, s =>
    match hostWrite inputs s a v with
    | some t => runUntil inputs ending done rest t
    | none => none

/-- A whole run of R105: from the reset state with an image and an entry point, to the end the claim names. -/
def runFromReset (c : Config) (image : List Word) (entryPc : Addr) (inputs : List Addr) (ending : RunEnd)
    (events : List Event) : Option State :=
  match boot c image entryPc with
  | some s => runUntil inputs ending 0 events s
  | none => none

/-- What the observation port can be asked for: a cell by its address, or a flag by its name (R177). -/
inductive Probe where
  | cell (a : Addr)
  | ext
  | bias
  | ie
  | fault
deriving DecidableEq, Repr

/-- What the observation port answers (R177). -/
inductive Seen where
  | value (v : Word)
  | flag (b : Bool)
  | fault (r : Option FaultRecord)
  | unreadable
deriving DecidableEq, Repr

/-- `observe`: Read's value, or `unreadable` where Read would fault; no state changes and no fault is raised (R177). -/
def observe (s : State) : Probe → Seen
  | .cell a =>
    match memRead s a with
    | .ok v => .value v
    | .error _ => .unreadable
  | .ext => .flag s.ext
  | .bias => .value s.bias
  | .ie => .flag s.ie
  | .fault => .fault s.fault

end Sys2Proof.Machine
end

