-- ==== Sys2Proof/Safety.lean ====
section
/-! DEFINITION. The terms claims are stated in: which addresses answer, the invariant of the machine, and what a run
without a fault is. -/

namespace Sys2Proof.Machine

/-- A reserved special location (R32, R163). -/
abbrev ReservedAt (c : Config) (a : Addr) : Prop := 8 ≤ a.toNat ∧ a.toNat < c.erasableFirst

/-- An erasable cell (R27, R32). -/
abbrev ErasableAt (c : Config) (a : Addr) : Prop := c.erasableFirst ≤ a.toNat ∧ a.toNat ≤ 1023

/-- A cell of the implemented fixed bank (R28, R32). -/
abbrev BankAt (c : Config) (a : Addr) : Prop := c.fixedBase ≤ a.toNat ∧ a.toNat < c.fixedBase + c.fixedSize

/-- A fixed address outside the implemented bank (R32, R168). -/
abbrev NoBankAt (c : Config) (a : Addr) : Prop := 1024 ≤ a.toNat ∧ ¬BankAt c a

/-- An address a read answers: a central register, an erasable cell or a cell of the bank (R32). -/
abbrev Readable (c : Config) (a : Addr) : Prop := a.toNat ≤ 7 ∨ ErasableAt c a ∨ BankAt c a

/-- An address a write answers: a central register other than the hard-wired zero, or an erasable cell (R32). -/
abbrev Writable (c : Config) (a : Addr) : Prop := a.toNat ≤ 6 ∨ ErasableAt c a

/-- What every cycle keeps. `cells` and `narrowForm` are R27, R28 and R35, `bankCell` is R17, `narrowL` and `narrowQ` are
R20, `config` is R8. -/
structure Inv (s : State) : Prop where
  config : s.cfg.legal = true
  canonicalMemory : s.mem.wf = true
  cells : ∀ c ∈ s.mem, (s.cfg.erasableFirst ≤ c.1 ∧ c.1 ≤ 1023) ∨
    (s.cfg.fixedBase ≤ c.1 ∧ c.1 < s.cfg.fixedBase + s.cfg.fixedSize)
  narrowForm : ∀ c ∈ s.mem, canonical c.2 = true
  bankCell : s.bb &&& 0x7C07#16 = s.bb
  narrowL : s.cfg.wideRegs = .accQ → canonical s.l = true
  narrowQ : s.cfg.wideRegs = .accL → canonical s.q = true

/-- A run of n cycles in which every cycle completes without a fault; only the end of such a run is a final state
(R105, D20). It is a run without host writes; `runUntil` is the run with them. -/
def SafeRun : Nat → State → Prop
  | 0, s => s.fault = none
  | n + 1, s => ∃ t, step s = .next t ∧ t.fault = none ∧ SafeRun n t

end Sys2Proof.Machine
end

