-- ==== Sys2Proof/Certificates/Slice0/Obligations.lean ====
section
/-! DEFINITION. The statements for the provers. Each docstring names the rule of spec/ it formalises. -/

namespace Sys2Proof.Claims

open Sys2Proof.Machine

/-- The state a handler starts from: Z one further, BIAS and EXT cleared (R97 steps 3 and 4). -/
def began (s : State) : State := { s with z := s.z + 1#12, bias := 0#16, ext := false }

/-- A state `t` in which instruction `i`, fetched from `pc`, has raised a fault about address `a` (R161; the recorded word
is 15 bits, log 5). -/
def faulted (t : State) (i : Instr) (pc : Addr) (code : FaultCode) (a : Addr) : State :=
  { t with fault := some { code := code, fetchAddr := pc, word := some (encode i), addr := some a } }

/-- The state an instruction the CORE does not implement leaves: only FAULT is written (R165). -/
def notImplemented (s : State) (i : Instr) (name : UnimplementedName) : State :=
  { s with fault := some { code := .unimplemented name, fetchAddr := s.z, word := some (encode i), addr := none } }

/-- An instruction whose first access is at `a` faults there, before any register or cell is written, when `a` is
reserved (R163). -/
def StopsAtReserved (i : Instr) (a : Addr) (s : State) : Prop :=
  ReservedAt s.cfg a → exec i s = .next (faulted (began s) i s.z .reservedAddress a)

/-- An instruction whose first access is at a general address `a` faults there, before any register or cell is written,
when `a` is reserved (R163) or outside the implemented bank (R168). -/
def StopsAtOperand (i : Instr) (a : Addr) (s : State) : Prop :=
  StopsAtReserved i a s ∧
    (NoBankAt s.cfg a → exec i s = .next (faulted (began s) i s.z .unimplementedBank a))

/-- What L holds after `v` is written to it: raw when L is wide, narrowed when it is not (R15, R20). -/
def intoL (c : Config) (v : Word) : Word := if c.wideRegs = .accL then v else narrow c v

/-- What Q holds after `v` is written to it: raw when Q is wide, narrowed when it is not (R16, R20). -/
def intoQ (c : Config) (v : Word) : Word := if c.wideRegs = .accQ then v else narrow c v

/-- The instruction kept all the cells but those at the listed addresses. -/
def KeepsCellsBut (stored : List Addr) (s t : State) : Prop :=
  ∀ n : Nat, (∀ a ∈ stored, a.toNat ≠ n) → t.mem.get n = s.mem.get n

/-- The bank cell is kept unless EB, FB or BB (addresses 3, 4, 6) is among the addresses stored to (R17). -/
def KeepsBankCellBut (stored : List Addr) (s t : State) : Prop :=
  (∀ a ∈ stored, a ≠ 3#12 ∧ a ≠ 4#12 ∧ a ≠ 6#12) → t.bb = s.bb

/-- After a cycle that ran an INDEX of either form in `s` and came to `t`: BIAS is `v`, EXT is `ext`, and the next cycle runs
the next word `raw`, biased once by `v` and decoded in the table of `ext`; the bias is gone after it unless that word is
itself INDEX, of either form (R104). -/
def BiasesNext (s t : State) (ext : Bool) (v raw : Word) : Prop :=
  t.bias = v ∧ t.ext = ext ∧ t.z = s.z + 1#12 ∧
    step t = exec (decode ext ((biasAdd s.cfg raw v).setWidth 15)) { t with bias := 0#16 } ∧
    ∀ u : State, step t = .next u → u.fault = none →
      (∀ e, decode ext ((biasAdd s.cfg raw v).setWidth 15) ≠ .index e) →
      (∀ k, decode ext ((biasAdd s.cfg raw v).setWidth 15) ≠ .indexK k) → u.bias = 0#16

end Sys2Proof.Claims

open Sys2Proof Sys2Proof.Machine Sys2Proof.Claims

/-! ### Encoding -/

/-- Decoding the word of a well-formed instruction, in that instruction's table, gives the instruction back, for every
operand value (R53, R54, R57). -/
def Obligations.DecodeOfEncode : Prop :=
  ∀ i : Instr, i.wf = true → decode i.extended (encode i) = i

/-- Every word decodes in both tables to a well-formed instruction of that table whose word it is: no word is
undefined, and none has two meanings (R57, R60). -/
def Obligations.EncodeOfDecode : Prop :=
  ∀ (ext : Bool) (w : Word15),
    encode (decode ext w) = w ∧ (decode ext w).wf = true ∧ (decode ext w).extended = ext

/-- Words of 95_test_vectors.md decode to the instructions they stand for. -/
def Obligations.SampleWordsDecode : Prop :=
  decode false 0o60144#15 = .ad 100#12 ∧ decode false 0o26144#15 = .ads 100#10 ∧
    decode false 0o12114#15 = .tcf 1100#12 ∧ decode false 0o54144#15 = .ts 100#10 ∧
    decode false 0o50017#15 = .resume ∧ decode false 0o02114#15 = .tc 1100#12 ∧
    decode true 0o30311#15 = .dca 201#12 ∧ decode true 0o10144#15 = .dv 100#10 ∧
    decode true 0o62114#15 = .bzmf 1100#12 ∧ decode true 0o07000#15 = .edrupt 0#9

/-- R55, R56: the implied literals of the basic opcode 0, TC for its every other word, and no implied instructions in the
extended table; the basic word 0o50017 is RESUME, the extended one INDEX of address 15.
The name that READ records is IO with its IOP and channel (log 14, DEDUCED). -/
def Obligations.ImpliedLiterals : Prop :=
  decode false 0o00002#15 = .ret ∧ decode false 0o00003#15 = .relint ∧
    decode false 0o00004#15 = .inhint ∧ decode false 0o00006#15 = .extend ∧
    (∀ k : Addr, k ≠ 2#12 → k ≠ 3#12 → k ≠ 4#12 → k ≠ 6#12 → decode false (0#3 ++ k) = .tc k) ∧
    (∀ ch : Channel, 2 ≤ ch.toNat → ch.toNat ≤ 6 →
      decode true (0#3 ++ (0#3 ++ ch : Addr)) = .read ch ∧
        ∀ s : State, exec (.read ch) s = .next (notImplemented s (.read ch) (.io 0#3 ch))) ∧
    decode false 0o50017#15 = .resume ∧ decode true 0o50017#15 = .indexK 15#12 ∧
    ∀ s : State, s.cfg.legal = true →
      exec .resume s = .next (notImplemented s .resume .resume) ∧
        exec (.indexK 15#12) s = .next (faulted (began s) (.indexK 15#12) s.z .reservedAddress 15#12)

/-! ### The ALU and the bookkeeper -/

/-- R81: the modified add is the 16-bit sum with the carry out of bit 15 added back in. -/
def Obligations.AddWithEndAroundCarry : Prop :=
  ∀ x y : Word,
    (add x y).toNat = if 0x10000 ≤ x.toNat + y.toNat then x.toNat + y.toNat - 0xFFFF else x.toNat + y.toNat

/-- R82, the laws of add (the spec derives them from R81). -/
def Obligations.AddLaws : Prop :=
  (∀ v : Word, add v 0#16 = v) ∧ (∀ x y : Word, add x y = add y x) ∧
    (∀ x y z : Word, add (add x y) z = add x (add y z)) ∧
    (∀ x y : Word, add x y = 0#16 ↔ x = 0#16 ∧ y = 0#16) ∧
    (∀ x y : Word, add x y = 0xFFFF#16 ↔
      x.toNat + y.toNat = 0xFFFF ∨ x.toNat + y.toNat = 0x1FFFE) ∧
    (∀ x y : Word, (add x y).toNat % 65535 = (x.toNat + y.toNat) % 65535) ∧
    (∀ x : Word, add x (~~~x) = 0xFFFF#16)

/-- R83: the integers accumulator-form values stand for, and add as the sum of integers. -/
def Obligations.AddIsSignedSum : Prop :=
  (∀ v : Word, -32767 ≤ val16 v ∧ val16 v ≤ 32767) ∧
    (∀ v : Word, val16 v = 0 ↔ v = 0x0000#16 ∨ v = 0xFFFF#16) ∧
    (∀ v : Word, canonical v = true → val16 v = toSigned v) ∧
    (∀ x y : Word, -32767 ≤ val16 x + val16 y → val16 x + val16 y ≤ 32767 →
      val16 (add x y) = val16 x + val16 y)

/-- R84: the classification of a value by its two top bits, and the indicator of each verdict; R85: the corrected value
has bit 15 equal to bit 14, and its integer is 16384 nearer to zero after an overflow. -/
def Obligations.OverflowVerdictsAndCorrection : Prop :=
  ∀ v : Word,
    (v.getLsbD 15 = v.getLsbD 14 → ovf v = .none ∧ indicator (ovf v) = 0x0000#16) ∧
      (v.getLsbD 15 = false → v.getLsbD 14 = true → ovf v = .positive ∧ indicator (ovf v) = 0x0001#16) ∧
      (v.getLsbD 15 = true → v.getLsbD 14 = false → ovf v = .negative ∧ indicator (ovf v) = 0xFFFE#16) ∧
      canonical (correct v) = true ∧ (ovf v = .none → correct v = v) ∧
      (ovf v ≠ .none → correct v = v ^^^ 0x4000#16) ∧
      (ovf v = .positive → val16 (correct v) = val16 v - 16384) ∧
      (ovf v = .negative → val16 (correct v) = val16 v + 16384)

/-- R88, R89: the conversions undo each other up to the two zeros, and opposite integers have complementary words. -/
def Obligations.SignedConversions : Prop :=
  (∀ v : Word, -16383 ≤ toSigned v ∧ toSigned v ≤ 16383) ∧
    (∀ v : Word, v.setWidth 15 ≠ 0x7FFF#15 → fromSigned16 (toSigned v) = some (sext16 v)) ∧
    (∀ v : Word, v.setWidth 15 = 0x7FFF#15 → fromSigned16 (toSigned v) = some 0x0000#16) ∧
    (∀ n : Int, n ≠ 0 → -16383 ≤ n → n ≤ 16383 →
      ∃ x : Word, fromSigned16 n = some x ∧ fromSigned16 (-n) = some (~~~x))

/-- R35: both width enforcements give the 15-bit form, both keep a value already in it, and they differ only on a value
with a pending overflow. -/
def Obligations.NarrowForms : Prop :=
  (∀ (c : Config) (v : Word), c.narrowWriteMode = .strip → narrow c v = sext16 v) ∧
    (∀ (c : Config) (v : Word), c.narrowWriteMode = .correct → narrow c v = correct v) ∧
    (∀ (c : Config) (v : Word), canonical (narrow c v) = true) ∧
    (∀ (c : Config) (v : Word), canonical v = true → narrow c v = v) ∧
    (∀ (c d : Config) (v : Word), narrow c v ≠ narrow d v → ovf v ≠ .none)

/-- R99: the two bias adders agree exactly when there is no carry out of bit 15, otherwise they differ by 1, and a zero
bias leaves the word. -/
def Obligations.BiasAdders : Prop :=
  (∀ (c d : Config) (raw bias : Word), c.indexAdd = .modifiedAdd → d.indexAdd = .binary16 →
    (biasAdd c raw bias = biasAdd d raw bias ↔ raw.toNat + bias.toNat < 0x10000) ∧
      (0x10000 ≤ raw.toNat + bias.toNat → biasAdd c raw bias = biasAdd d raw bias + 1#16)) ∧
    (∀ (c : Config) (raw : Word), biasAdd c raw 0#16 = raw)

/-! ### The memory map -/

/-- R33: what Read answers at every address. -/
def Obligations.ReadMap : Prop :=
  ∀ s : State, s.cfg.legal = true →
    memRead s 0#12 = .ok s.a ∧ memRead s 1#12 = .ok s.l ∧ memRead s 2#12 = .ok s.q ∧
      memRead s 3#12 = .ok ((s.bb &&& 0x0007#16) <<< 8) ∧ memRead s 4#12 = .ok (s.bb &&& 0x7C00#16) ∧
      memRead s 5#12 = .ok (s.z.setWidth 16) ∧ memRead s 6#12 = .ok (s.bb &&& 0x7C07#16) ∧
      memRead s 7#12 = .ok 0x0000#16 ∧
      ∀ a : Addr,
        (ReservedAt s.cfg a → memRead s a = .error { code := .reservedAddress, addr := a }) ∧
          (ErasableAt s.cfg a ∨ BankAt s.cfg a → memRead s a = .ok (s.mem.get a.toNat)) ∧
          (NoBankAt s.cfg a → memRead s a = .error { code := .unimplementedBank, addr := a })

/-- R36: Read16 faults as Read does, is the raw cell at A and the other wide register, and Read with bit 14 copied into
bit 15 everywhere else; at a narrow data cell the two agree. -/
def Obligations.AccumulatorFormRead : Prop :=
  ∀ (s : State) (a : Addr), Inv s →
    (∀ f, memRead s a = .error f → read16 s a = .error f) ∧
      ∀ v : Word, memRead s a = .ok v →
        (a = 0#12 → read16 s a = .ok v) ∧
          (a = 1#12 → s.cfg.wideRegs = .accL → read16 s a = .ok v) ∧
          (a = 2#12 → s.cfg.wideRegs = .accQ → read16 s a = .ok v) ∧
          (a = 3#12 ∨ a = 4#12 ∨ a = 5#12 ∨ a = 6#12 → read16 s a = .ok (sext16 v)) ∧
          (a ≠ 3#12 → a ≠ 4#12 → a ≠ 5#12 → a ≠ 6#12 → read16 s a = .ok v)

/-- R34: what Write does at every address. -/
def Obligations.WriteMap : Prop :=
  ∀ (s : State) (v : Word), s.cfg.legal = true →
    memWrite s 0#12 v = .ok { s with a := v } ∧
      memWrite s 1#12 v = .ok { s with l := intoL s.cfg v } ∧
      memWrite s 2#12 v = .ok { s with q := intoQ s.cfg v } ∧
      memWrite s 3#12 v = .ok { s with bb := (s.bb &&& 0x7C00#16) ||| (v.extractLsb' 8 3).setWidth 16 } ∧
      memWrite s 4#12 v = .ok { s with bb := (v &&& 0x7C00#16) ||| (s.bb &&& 0x0007#16) } ∧
      memWrite s 5#12 v = .ok { s with z := v.setWidth 12 } ∧
      memWrite s 6#12 v = .ok { s with bb := v &&& 0x7C07#16 } ∧
      memWrite s 7#12 v = .error { code := .writeToZero, addr := 7#12 } ∧
      ∀ a : Addr,
        (ReservedAt s.cfg a → memWrite s a v = .error { code := .reservedAddress, addr := a }) ∧
          (ErasableAt s.cfg a → memWrite s a v = .ok { s with mem := s.mem.set a.toNat (narrow s.cfg v) }) ∧
          (1024 ≤ a.toNat → memWrite s a v = .error { code := .writeToFixed, addr := a })

/-- R41: a write changes what its own address reads and nothing else, but for EB, FB and BB, which share one cell; the
flags stay, and the memory keeps its canonical form. -/
def Obligations.WriteTouchesItsCell : Prop :=
  ∀ (s t : State) (a : Addr) (v : Word), s.cfg.legal = true → s.mem.wf = true → memWrite s a v = .ok t →
    (∀ b : Addr, b ≠ a →
        ¬((a = 3#12 ∨ a = 4#12 ∨ a = 6#12) ∧ (b = 3#12 ∨ b = 4#12 ∨ b = 6#12)) → memRead t b = memRead s b) ∧
      (ErasableAt s.cfg a → memRead t a = .ok (narrow s.cfg v)) ∧
      t.mem.wf = true ∧ t.cfg = s.cfg ∧ t.ext = s.ext ∧ t.bias = s.bias ∧ t.ie = s.ie ∧ t.fault = s.fault

/-- R17: the three views of the bank cell: a write through one view is seen through the others, field by field. -/
def Obligations.BankViews : Prop :=
  ∀ (s : State) (v : Word), s.cfg.legal = true →
    (∃ t, memWrite s 3#12 v = .ok t ∧ memRead t 3#12 = .ok (v &&& 0x0700#16) ∧ memRead t 4#12 = memRead s 4#12 ∧
        memRead t 6#12 = .ok ((s.bb &&& 0x7C00#16) ||| ((v >>> 8) &&& 0x0007#16))) ∧
      (∃ t, memWrite s 4#12 v = .ok t ∧ memRead t 4#12 = .ok (v &&& 0x7C00#16) ∧ memRead t 3#12 = memRead s 3#12 ∧
        memRead t 6#12 = .ok ((v &&& 0x7C00#16) ||| (s.bb &&& 0x0007#16))) ∧
      (∃ t, memWrite s 6#12 v = .ok t ∧ memRead t 6#12 = .ok (v &&& 0x7C07#16) ∧
        memRead t 4#12 = .ok (v &&& 0x7C00#16) ∧ memRead t 3#12 = .ok ((v &&& 0x0007#16) <<< 8))

/-- R87: a value stored overflow-corrected reads back raw from a wide location and corrected from an erasable cell. -/
def Obligations.CorrectedStoreReadsBack : Prop :=
  ∀ (s : State) (v : Word) (a : Addr), s.cfg.legal = true → s.mem.wf = true →
    (wide s.cfg a = true → storeCorrected s v a = memWrite s a v ∧
        ∃ t, storeCorrected s v a = .ok t ∧ read16 t a = .ok v) ∧
      (wide s.cfg a = false → storeCorrected s v a = memWrite s a (correct v)) ∧
      (ErasableAt s.cfg a → ∃ t, storeCorrected s v a = .ok t ∧ read16 t a = .ok (correct v))

/-! ### The cycle -/

/-- R97: when no fault is recorded and the word at Z, biased, decodes to an instruction, the cycle is that instruction's
meaning with BIAS cleared. -/
def Obligations.StepRunsTheDecodedInstruction : Prop :=
  ∀ (s : State) (raw : Word) (i : Instr), s.fault = none → read16 s s.z = .ok raw →
    decode s.ext ((biasAdd s.cfg raw s.bias).setWidth 15) = i →
    step s = exec i { s with bias := 0#16 }

/-- R98: the fetch reads through Read16 and only bits 14:0 of the biased word reach the decoder; from a reserved or an
unimplemented address it faults, with a record that names Z and has no word, and nothing else changes (R161). -/
def Obligations.FetchReadsOrFaults : Prop :=
  ∀ s : State, s.fault = none → s.cfg.legal = true →
    (Readable s.cfg s.z → ∃ raw, read16 s s.z = .ok raw ∧
        step s = exec (decode s.ext ((biasAdd s.cfg raw s.bias).setWidth 15)) { s with bias := 0#16 }) ∧
      (ReservedAt s.cfg s.z → step s = .next { s with
        fault := some { code := .reservedAddress, fetchAddr := s.z, word := none, addr := some s.z } }) ∧
      (NoBankAt s.cfg s.z → step s = .next { s with
        fault := some { code := .unimplementedBank, fetchAddr := s.z, word := none, addr := some s.z } })

/-- R25: once FAULT is set no further cycle runs, and the debugger's step(n) leaves the state as it is (the model's form
of the stop is log 4). -/
def Obligations.StoppedMachineStays : Prop :=
  ∀ (s : State) (r : FaultRecord), s.fault = some r →
    step s = .fault (.stopped r) ∧ ∀ n : Nat, stepN n s = s

/-- R194: a cycle of a machine that is not stopped always ends, whatever it fetches. That a cycle that faults ends in a NEXT
state, with FAULT set, is the model's form of the fault (log 4, DEDUCED), and that every meaning answers a next state, for
terms that no word decodes to as well, is the model's choice (log 19). The next state is not said here: the statement
completes no instruction. -/
def Obligations.EveryCycleEnds : Prop :=
  (∀ (i : Instr) (s : State), ∃ t, exec i s = .next t) ∧
    ∀ s : State, s.fault = none → ∃ t, step s = .next t

/-- R101: after a completed cycle BIAS is non-zero only if the instruction was INDEX, and EXT is 1 exactly if it was
EXTEND or the extended INDEX. -/
def Obligations.FlagsAfterACycle : Prop :=
  ∀ (s t : State) (w : Word15), s.fault = none → fetch s = .ok w → step s = .next t → t.fault = none →
    (t.bias ≠ 0#16 → (∃ e, decode s.ext w = .index e) ∨ ∃ k, decode s.ext w = .indexK k) ∧
      (t.ext = true ↔ decode s.ext w = .extend ∨ ∃ k, decode s.ext w = .indexK k)

/-- R103: EXTEND makes the next word, and no other state, decode in the extended table. -/
def Obligations.ExtendActsOnTheNextWord : Prop :=
  ∀ (s t : State) (w : Word15) (raw : Word), s.fault = none → fetch s = .ok w →
    decode s.ext w = .extend → step s = .next t → read16 t t.z = .ok raw →
    t.z = s.z + 1#12 ∧ step t = exec (decode true (raw.setWidth 15)) t

/-- R104: INDEX, basic or extended, biases the next fetched word, once: the bias is gone after that word unless it is itself
INDEX. After the extended form that word is decoded in the extended table (R103, R153). -/
def Obligations.IndexBiasesOnce : Prop :=
  ∀ (s t : State) (w : Word15) (v raw : Word), s.fault = none → fetch s = .ok w → step s = .next t →
    read16 t t.z = .ok raw →
    (∀ e, decode s.ext w = .index e → read16 (began s) (eAddr e) = .ok v → BiasesNext s t false v raw) ∧
      (∀ k, decode s.ext w = .indexK k → read16 (began s) k = .ok v → BiasesNext s t true v raw)

/-! ### Rules about the whole machine -/

/-- R8, R28: no cycle changes the configuration or a cell of fixed memory. -/
def Obligations.ConfigurationAndFixedMemoryKept : Prop :=
  ∀ s t : State, step s = .next t →
    t.cfg = s.cfg ∧ ∀ n : Nat, 1024 ≤ n → t.mem.get n = s.mem.get n

/-- R24: RELINT sets IE, INHINT clears it, and no other cycle changes it, whatever address it writes. -/
def Obligations.InterruptEnableFlag : Prop :=
  ∀ (s t : State) (w : Word15), s.fault = none → fetch s = .ok w → step s = .next t →
    (decode s.ext w = .relint → t.ie = true) ∧ (decode s.ext w = .inhint → t.ie = false) ∧
      (decode s.ext w ≠ .relint → decode s.ext w ≠ .inhint → t.ie = s.ie)

/-- R161, R170: a cycle that faults records the address it fetched from, the biased word it fetched (none if the fetch
itself faulted), and the operand address that belongs to the code; an Unimplemented cycle changes nothing but BIAS and
FAULT; WriteToFixed and UndefinedEncoding are never raised (R164, R167).
That the recorded word is the 15 bits of the biased word is log 5 (DEDUCED); that the model records Z on entry and the
encoding of the instruction, which this statement shows to be the address and the word fetched, is log 8 (DESIGN
CHOICE). -/
def Obligations.FaultRecordIsPrecise : Prop :=
  ∀ (s t : State) (r : FaultRecord), s.cfg.legal = true → s.fault = none → step s = .next t →
    t.fault = some r →
    r.fetchAddr = s.z ∧ (∀ w, fetch s = .ok w → r.word = some w) ∧
      (∀ f, fetch s = .error f → r.word = none ∧ r.addr = some s.z ∧ t = { s with fault := some r }) ∧
      (r.code = .reservedAddress → ∃ a, r.addr = some a ∧ ReservedAt s.cfg a) ∧
      (r.code = .writeToZero → r.addr = some 7#12) ∧
      (r.code = .unimplementedBank → ∃ a, r.addr = some a ∧ NoBankAt s.cfg a) ∧
      (r.code = .addressUnderflow → r.addr = some 0#12) ∧
      (∀ name, r.code = .unimplemented name →
        r.addr = none ∧ t = { s with bias := 0#16, fault := some r }) ∧
      r.code ≠ .undefinedEncoding ∧ r.code ≠ .writeToFixed

/-- The invariant of the machine (canonical memory of 15-bit cells at implemented addresses, a legal configuration, the
bank cell and the narrow registers in their forms) is kept by every cycle and by every write of the host, and so along
every run, host writes among its cycles, to whatever end a claim names (R8, R17, R20, R27, R28, R35, R48, R105). -/
def Obligations.InvariantKept : Prop :=
  (∀ s t : State, Inv s → step s = .next t → Inv t) ∧
    (∀ (inputs : List Addr) (s t : State) (a : Addr) (v : Word), Inv s → hostWrite inputs s a v = some t → Inv t) ∧
    (∀ (inputs : List Addr) (events : List Event) (s t : State), Inv s → runEvents inputs events s = some t → Inv t) ∧
    ∀ (inputs : List Addr) (ending : RunEnd) (n : Nat) (events : List Event) (s t : State),
      Inv s → runUntil inputs ending n events s = some t → Inv t

/-- The invariant holds after reset, and after a boot with any legal configuration, image and entry point. -/
def Obligations.InvariantAtReset : Prop :=
  Inv State.reset ∧
    ∀ (c : Config) (image : List Word) (entryPc : Addr) (s : State), c.legal = true →
      boot c image entryPc = some s → Inv s

/-! ### Reset and the host -/

/-- R29, R183: the reset values, the loading of the image word by word, +0 past its end, and the refusal of an image
longer than the bank. -/
def Obligations.BootLoadsTheImage : Prop :=
  ∀ (c : Config) (image : List Word) (entryPc : Addr), c.legal = true →
    (c.fixedSize < image.length → boot c image entryPc = none) ∧
      (image.length ≤ c.fixedSize → ∃ s, boot c image entryPc = some s ∧
        s.cfg = c ∧ s.a = 0x0000#16 ∧ s.l = 0x0000#16 ∧ s.q = 0x0000#16 ∧ s.bb = 0x0000#16 ∧ s.z = entryPc ∧
        s.ext = false ∧ s.bias = 0x0000#16 ∧ s.ie = false ∧ s.fault = none ∧
        (∀ n : Nat, c.erasableFirst ≤ n → n ≤ 1023 → s.mem.get n = 0x0000#16) ∧
        ∀ j : Nat, j < c.fixedSize → s.mem.get (c.fixedBase + j) = sext16 (image.getD j 0x0000#16))

/-- The model's reset state is the boot of the decided configuration with the empty image; its Z = 1024 is the model's
choice of the open ENTRY_PC (log 2, log 3), everything else is R29's. -/
def Obligations.ResetState : Prop :=
  boot Config.decided [] 1024#12 = some State.reset ∧ State.reset.z = 1024#12 ∧ State.reset.a = 0x0000#16 ∧
    State.reset.mem = [] ∧ State.reset.ext = false ∧ State.reset.fault = none

/-- R178: a front-end write to an erasable address of HOST_INPUT_SET stores the narrowed value there and changes nothing
else; to any other address it is refused. That a stopped machine refuses it as well is the model's reading (log 15).
R177: the observation port shows Read's value wherever Read answers and says `unreadable` elsewhere. -/
def Obligations.HostPorts : Prop :=
  (∀ (inputs : List Addr) (s : State) (a : Addr) (v : Word), s.cfg.legal = true →
    (s.fault = none → a ∈ inputs → ErasableAt s.cfg a →
        hostWrite inputs s a v = some { s with mem := s.mem.set a.toNat (narrow s.cfg v) }) ∧
      (a ∉ inputs ∨ ¬ErasableAt s.cfg a → hostWrite inputs s a v = none) ∧
      (s.fault ≠ none → hostWrite inputs s a v = none)) ∧
    ∀ (s : State) (a : Addr), s.cfg.legal = true →
      (Readable s.cfg a → ∃ v, memRead s a = .ok v ∧ observe s (.cell a) = .value v) ∧
        (¬Readable s.cfg a → observe s (.cell a) = .unreadable) ∧
        observe s .ext = .flag s.ext ∧ observe s .bias = .value s.bias ∧ observe s .ie = .flag s.ie ∧
        observe s .fault = .fault s.fault

/-! ### Arithmetic and logic -/

/-- R108: AD. -/
def Obligations.AdAdds : Prop :=
  ∀ (s : State) (k : Addr), s.cfg.legal = true →
    decode false (6#3 ++ k) = .ad k ∧
      (Readable s.cfg k → ∃ m, read16 (began s) k = .ok m ∧
        exec (.ad k) s = .next { began s with a := add s.a m }) ∧
      StopsAtOperand (.ad k) k s

/-- R109: SU, when ADMIT_UNDESCRIBED is true; otherwise its word is Unimplemented. -/
def Obligations.SuSubtracts : Prop :=
  ∀ (s : State) (e : EField), s.cfg.legal = true →
    decode true (6#3 ++ (0#2 ++ e : Addr)) = .su e ∧
      (s.cfg.admitUndescribed = true →
        (Readable s.cfg (eAddr e) → ∃ m, read16 (began s) (eAddr e) = .ok m ∧
          exec (.su e) s = .next { began s with a := add s.a (~~~m) }) ∧
        StopsAtReserved (.su e) (eAddr e) s) ∧
      (s.cfg.admitUndescribed = false → exec (.su e) s = .next (notImplemented s (.su e) .su))

/-- R110: ADS: the raw sum in A, the sum overflow-corrected at E, and the order of the two when E is 7. -/
def Obligations.AdsAddsToStorage : Prop :=
  ∀ (s : State) (e : EField), s.cfg.legal = true →
    decode false (2#3 ++ (3#2 ++ e : Addr)) = .ads e ∧
      (Writable s.cfg (eAddr e) → ∃ m t, read16 (began s) (eAddr e) = .ok m ∧
        storeCorrected { began s with a := add s.a m } (add s.a m) (eAddr e) = .ok t ∧
        exec (.ads e) s = .next t) ∧
      (ErasableAt s.cfg (eAddr e) → ∃ m, read16 (began s) (eAddr e) = .ok m ∧
        exec (.ads e) s = .next { began s with
          a := add s.a m, mem := s.mem.set e.toNat (correct (add s.a m)) }) ∧
      (e = 7#10 → exec (.ads e) s =
        .next (faulted { began s with a := add s.a 0#16 } (.ads e) s.z .writeToZero 7#12)) ∧
      StopsAtReserved (.ads e) (eAddr e) s

/-- R113: INCR. -/
def Obligations.IncrAddsOne : Prop :=
  ∀ (s : State) (e : EField), s.cfg.legal = true →
    decode false (2#3 ++ (2#2 ++ e : Addr)) = .incr e ∧
      (Writable s.cfg (eAddr e) → ∃ v t, read16 (began s) (eAddr e) = .ok v ∧
        memWrite (began s) (eAddr e) (add v 0x0001#16) = .ok t ∧ exec (.incr e) s = .next t) ∧
      (e = 7#10 → exec (.incr e) s = .next (faulted (began s) (.incr e) s.z .writeToZero 7#12)) ∧
      StopsAtReserved (.incr e) (eAddr e) s

/-- R115: AUG: one further from zero. -/
def Obligations.AugMovesFromZero : Prop :=
  ∀ (s : State) (e : EField), s.cfg.legal = true →
    decode true (2#3 ++ (2#2 ++ e : Addr)) = .aug e ∧
      (Writable s.cfg (eAddr e) → ∃ v t, read16 (began s) (eAddr e) = .ok v ∧
        memWrite (began s) (eAddr e) (if v.getLsbD 15 = false then add v 0x0001#16 else add v 0xFFFE#16) = .ok t ∧
        exec (.aug e) s = .next t) ∧
      (e = 7#10 → exec (.aug e) s = .next (faulted (began s) (.aug e) s.z .writeToZero 7#12)) ∧
      StopsAtReserved (.aug e) (eAddr e) s

/-- R116: DIM: one nearer to zero, both zeros unchanged. -/
def Obligations.DimMovesToZero : Prop :=
  ∀ (s : State) (e : EField), s.cfg.legal = true →
    decode true (2#3 ++ (3#2 ++ e : Addr)) = .dim e ∧
      (Writable s.cfg (eAddr e) → ∃ v r t, read16 (began s) (eAddr e) = .ok v ∧
        (v = 0x0000#16 ∨ v = 0xFFFF#16 → r = v) ∧
        (v ≠ 0x0000#16 → v.getLsbD 15 = false → r = add v 0xFFFE#16) ∧
        (v ≠ 0xFFFF#16 → v.getLsbD 15 = true → r = add v 0x0001#16) ∧
        memWrite (began s) (eAddr e) r = .ok t ∧ exec (.dim e) s = .next t) ∧
      (e = 7#10 → exec (.dim e) s = .next (faulted (began s) (.dim e) s.z .writeToZero 7#12)) ∧
      StopsAtReserved (.dim e) (eAddr e) s

/-- R118: MSU under the decided msuFn, worked in natural numbers modulo 0x8000. The clause for a configuration with another
msuFn is the model's choice (log 9, DESIGN CHOICE): A then takes the value of a free function of A and the operand, all
that R117 says of msuFn. -/
def Obligations.MsuSubtractsModularly : Prop :=
  ∀ (s : State) (e : EField), s.cfg.legal = true →
    decode true (2#3 ++ (0#2 ++ e : Addr)) = .msu e ∧
      (Readable s.cfg (eAddr e) → ∃ m A, read16 (began s) (eAddr e) = .ok m ∧
        exec (.msu e) s = .next { began s with a := A } ∧
        (s.cfg.msuFn = .other → A = Config.msuOther s.a m) ∧
        (s.cfg.msuFn = .reference → canonical A = true ∧
          ((m.toNat % 0x8000 + 0x8000 - (correct s.a).toNat % 0x8000) % 0x8000 < 0x4000 →
            A.toNat % 0x8000 = (m.toNat % 0x8000 + 0x8000 - (correct s.a).toNat % 0x8000) % 0x8000) ∧
          (0x4000 ≤ (m.toNat % 0x8000 + 0x8000 - (correct s.a).toNat % 0x8000) % 0x8000 →
            A.toNat % 0x8000 = (m.toNat % 0x8000 + 0x8000 - (correct s.a).toNat % 0x8000) % 0x8000 - 1))) ∧
      StopsAtReserved (.msu e) (eAddr e) s

/-- R119, R120: MP: the two halves have the product as their double-length value and its sign in bit 14 of both; a zero
product has its own sign rule; L is canonical, and A is sign-extended only under MP_HIGH_SEXT.
The operand is the low 15 bits of Read16 for MP A as well, which is the model's choice where A has an overflow pending
(log 21). -/
def Obligations.MpMultiplies : Prop :=
  ∀ (s : State) (k : Addr), s.cfg.legal = true →
    decode true (7#3 ++ k) = .mp k ∧
      (Readable s.cfg k → ∃ m A L, read16 (began s) k = .ok m ∧
        exec (.mp k) s = .next { began s with a := A, l := L } ∧ canonical L = true ∧
        (s.cfg.mpHighSext = true → canonical A = true) ∧ (s.cfg.mpHighSext = false → A.getLsbD 15 = false) ∧
        (toSigned (correct s.a) * toSigned m ≠ 0 →
          toSigned A * 16384 + toSigned L = toSigned (correct s.a) * toSigned m ∧
          A.getLsbD 14 = decide (toSigned (correct s.a) * toSigned m < 0) ∧
          L.getLsbD 14 = decide (toSigned (correct s.a) * toSigned m < 0)) ∧
        (toSigned (correct s.a) * toSigned m = 0 →
          (toSigned (correct s.a) = 0 ∧ (correct s.a).getLsbD 14 ≠ m.getLsbD 14 →
            A.setWidth 15 = 0x7FFF#15 ∧ L = 0xFFFF#16) ∧
          (¬(toSigned (correct s.a) = 0 ∧ (correct s.a).getLsbD 14 ≠ m.getLsbD 14) →
            A = 0x0000#16 ∧ L = 0x0000#16))) ∧
      StopsAtOperand (.mp k) k s

/-- R121: DAS: low words first, their overflow into the high words, the high indicator in A and +0 in L; where each
operand form stops, and what has been written by then. -/
def Obligations.DasAddsDouble : Prop :=
  ∀ (s : State) (e : EField), s.cfg.legal = true →
    decode false (2#3 ++ (0#2 ++ e : Addr)) = .das e ∧
      (e ≠ 0#10 → Writable s.cfg (eAddr e) → Writable s.cfg (eAddr e - 1#12) →
        ∃ l m h lo hi u v, read16 (began s) 1#12 = .ok l ∧ read16 (began s) (eAddr e) = .ok m ∧ lo = add l m ∧
          storeCorrected (began s) lo (eAddr e) = .ok u ∧ read16 u (eAddr e - 1#12) = .ok h ∧
          hi = add (add u.a h) (indicator (ovf lo)) ∧ storeCorrected u hi (eAddr e - 1#12) = .ok v ∧
          exec (.das e) s = .next { v with a := indicator (ovf hi), l := 0x0000#16 }) ∧
      (e = 0#10 → exec (.das e) s = .next (faulted (began s) (.das e) s.z .addressUnderflow 0#12)) ∧
      (e = 7#10 → exec (.das e) s = .next (faulted (began s) (.das e) s.z .writeToZero 7#12)) ∧
      (ReservedAt s.cfg (eAddr e - 1#12) → ErasableAt s.cfg (eAddr e) →
        ∃ l m, read16 (began s) 1#12 = .ok l ∧ read16 (began s) (eAddr e) = .ok m ∧
          exec (.das e) s = .next (faulted
            { began s with mem := s.mem.set e.toNat (correct (add l m)) }
            (.das e) s.z .reservedAddress (eAddr e - 1#12))) ∧
      StopsAtReserved (.das e) (eAddr e) s

/-- R124: MASK: the 16-bit AND with a wide operand, else the 15-bit AND of the corrected A, sign-extended. -/
def Obligations.MaskAnds : Prop :=
  ∀ (s : State) (k : Addr), s.cfg.legal = true →
    decode false (7#3 ++ k) = .mask k ∧
      (Readable s.cfg k → ∃ m, read16 (began s) k = .ok m ∧
        (wide s.cfg k = true → exec (.mask k) s = .next { began s with a := s.a &&& m }) ∧
        (wide s.cfg k = false → exec (.mask k) s = .next { began s with a := sext16 (correct s.a &&& m) })) ∧
      StopsAtOperand (.mask k) k s

/-! ### Loads, stores, exchanges -/

/-- R126, R127: CA loads the operand in 16-bit form, CS its complement. -/
def Obligations.CaAndCsLoad : Prop :=
  ∀ (s : State) (k : Addr), s.cfg.legal = true →
    decode false (3#3 ++ k) = .ca k ∧ decode false (4#3 ++ k) = .cs k ∧
      (Readable s.cfg k → ∃ m, read16 (began s) k = .ok m ∧
        exec (.ca k) s = .next { began s with a := m } ∧
        exec (.cs k) s = .next { began s with a := ~~~m }) ∧
      StopsAtOperand (.ca k) k s ∧ StopsAtOperand (.cs k) k s

/-- R129: DCA: L takes the low word, then A the high word, read after the write of L; where it stops, and with what
written. -/
def Obligations.DcaLoadsDouble : Prop :=
  ∀ (s : State) (k : Addr), s.cfg.legal = true →
    decode true (3#3 ++ k) = .dca k ∧
      (k ≠ 0#12 → Readable s.cfg k → ∃ lo, read16 (began s) k = .ok lo ∧
        (Readable s.cfg (k - 1#12) → ∃ hi,
          read16 { began s with l := intoL s.cfg lo } (k - 1#12) = .ok hi ∧
          exec (.dca k) s = .next { began s with l := intoL s.cfg lo, a := hi }) ∧
        (ReservedAt s.cfg (k - 1#12) → exec (.dca k) s =
          .next (faulted { began s with l := intoL s.cfg lo } (.dca k) s.z .reservedAddress (k - 1#12))) ∧
        (NoBankAt s.cfg (k - 1#12) → exec (.dca k) s =
          .next (faulted { began s with l := intoL s.cfg lo } (.dca k) s.z .unimplementedBank (k - 1#12)))) ∧
      (k = 0#12 → exec (.dca k) s = .next (faulted (began s) (.dca k) s.z .addressUnderflow 0#12)) ∧
      StopsAtOperand (.dca k) k s

/-- R130: DCS: as DCA, with the high word complemented, and the low word too under DCS_LOW_COMPLEMENT. -/
def Obligations.DcsLoadsComplement : Prop :=
  ∀ (s : State) (k : Addr), s.cfg.legal = true →
    decode true (4#3 ++ k) = .dcs k ∧
      (k ≠ 0#12 → Readable s.cfg k → ∃ lo L, read16 (began s) k = .ok lo ∧
        (s.cfg.dcsLowComplement = true → L = intoL s.cfg (~~~lo)) ∧
        (s.cfg.dcsLowComplement = false → L = intoL s.cfg lo) ∧
        (Readable s.cfg (k - 1#12) → ∃ hi,
          read16 { began s with l := L } (k - 1#12) = .ok hi ∧
          exec (.dcs k) s = .next { began s with l := L, a := ~~~hi }) ∧
        (ReservedAt s.cfg (k - 1#12) → exec (.dcs k) s =
          .next (faulted { began s with l := L } (.dcs k) s.z .reservedAddress (k - 1#12))) ∧
        (NoBankAt s.cfg (k - 1#12) → exec (.dcs k) s =
          .next (faulted { began s with l := L } (.dcs k) s.z .unimplementedBank (k - 1#12)))) ∧
      (k = 0#12 → exec (.dcs k) s = .next (faulted (began s) (.dcs k) s.z .addressUnderflow 0#12)) ∧
      StopsAtOperand (.dcs k) k s

/-- R132: TS: the overflow-corrected store, then on overflow the skip and the indicator in A unless E is A; so TS A only
skips, and A and every other cell stay (R133). -/
def Obligations.TsStoresAndSkips : Prop :=
  ∀ (s : State) (e : EField), s.cfg.legal = true →
    decode false (5#3 ++ (2#2 ++ e : Addr)) = .ts e ∧
      (Writable s.cfg (eAddr e) → ∃ u, storeCorrected (began s) s.a (eAddr e) = .ok u ∧
        (ovf s.a = .none → exec (.ts e) s = .next u) ∧
        (ovf s.a ≠ .none → e ≠ 0#10 →
          exec (.ts e) s = .next { u with z := u.z + 1#12, a := indicator (ovf s.a) }) ∧
        (ovf s.a ≠ .none → e = 0#10 → exec (.ts e) s = .next { u with z := u.z + 1#12 })) ∧
      (e = 0#10 → exec (.ts e) s =
        .next { began s with z := if s.a.getLsbD 15 = s.a.getLsbD 14 then s.z + 1#12 else s.z + 2#12 }) ∧
      (e = 7#10 → exec (.ts e) s = .next (faulted (began s) (.ts e) s.z .writeToZero 7#12)) ∧
      StopsAtReserved (.ts e) (eAddr e) s

/-- R135, R136, R137: XCH, LXCH and QXCH when admitted: the register and the operand change places, a value of A or Q
going to memory overflow-corrected. -/
def Obligations.ExchangesSwap : Prop :=
  ∀ (s : State) (e : EField), s.cfg.legal = true → s.cfg.admitUndescribed = true →
    decode false (5#3 ++ (3#2 ++ e : Addr)) = .xch e ∧ decode false (2#3 ++ (1#2 ++ e : Addr)) = .lxch e ∧
      decode true (2#3 ++ (1#2 ++ e : Addr)) = .qxch e ∧
      (Writable s.cfg (eAddr e) → ∃ m l q u v w, read16 (began s) (eAddr e) = .ok m ∧
        read16 (began s) 1#12 = .ok l ∧ read16 (began s) 2#12 = .ok q ∧
        storeCorrected (began s) s.a (eAddr e) = .ok u ∧ exec (.xch e) s = .next { u with a := m } ∧
        memWrite (began s) (eAddr e) l = .ok v ∧ exec (.lxch e) s = .next { v with l := intoL s.cfg m } ∧
        storeCorrected (began s) q (eAddr e) = .ok w ∧ exec (.qxch e) s = .next { w with q := intoQ s.cfg m }) ∧
      (e = 7#10 →
        exec (.xch e) s = .next (faulted (began s) (.xch e) s.z .writeToZero 7#12) ∧
        exec (.lxch e) s = .next (faulted (began s) (.lxch e) s.z .writeToZero 7#12) ∧
        exec (.qxch e) s = .next (faulted (began s) (.qxch e) s.z .writeToZero 7#12)) ∧
      StopsAtReserved (.xch e) (eAddr e) s ∧ StopsAtReserved (.lxch e) (eAddr e) s ∧
      StopsAtReserved (.qxch e) (eAddr e) s

/-- R138: DXCH when admitted: L with the low word, then A with the high word. -/
def Obligations.DxchSwapsDouble : Prop :=
  ∀ (s : State) (e : EField), s.cfg.legal = true → s.cfg.admitUndescribed = true →
    decode false (5#3 ++ (1#2 ++ e : Addr)) = .dxch e ∧
      (e ≠ 0#10 → Writable s.cfg (eAddr e) → Writable s.cfg (eAddr e - 1#12) →
        ∃ lo l hi u v w, read16 (began s) (eAddr e) = .ok lo ∧ read16 (began s) 1#12 = .ok l ∧
          memWrite (began s) (eAddr e) l = .ok u ∧ v = { u with l := intoL s.cfg lo } ∧
          read16 v (eAddr e - 1#12) = .ok hi ∧ storeCorrected v v.a (eAddr e - 1#12) = .ok w ∧
          exec (.dxch e) s = .next { w with a := hi }) ∧
      (e = 0#10 → exec (.dxch e) s = .next (faulted (began s) (.dxch e) s.z .addressUnderflow 0#12)) ∧
      (e = 7#10 → exec (.dxch e) s = .next (faulted (began s) (.dxch e) s.z .writeToZero 7#12)) ∧
      (ReservedAt s.cfg (eAddr e - 1#12) → ErasableAt s.cfg (eAddr e) →
        ∃ lo l, read16 (began s) (eAddr e) = .ok lo ∧ read16 (began s) 1#12 = .ok l ∧
          exec (.dxch e) s = .next (faulted
            { began s with l := intoL s.cfg lo, mem := s.mem.set e.toNat (narrow s.cfg l) }
            (.dxch e) s.z .reservedAddress (eAddr e - 1#12))) ∧
      StopsAtReserved (.dxch e) (eAddr e) s

/-! ### Control -/

/-- R141: TC: the link register takes the return address, Z the target, for every target. -/
def Obligations.TcCalls : Prop :=
  ∀ (s : State) (k : Addr),
    (k ≠ 2#12 → k ≠ 3#12 → k ≠ 4#12 → k ≠ 6#12 → decode false (0#3 ++ k) = .tc k) ∧
      (s.cfg.linkReg = .q →
        exec (.tc k) s = .next { began s with q := (s.z + 1#12).setWidth 16, z := k }) ∧
      (s.cfg.linkReg = .l →
        exec (.tc k) s = .next { began s with l := (s.z + 1#12).setWidth 16, z := k })

/-- R155: RETURN loads Z from the low 12 bits of the link register, which keeps its value; run in the state a TC left, it
comes back to the word after the TC (R141). -/
def Obligations.ReturnGoesBack : Prop :=
  decode false 0o00002#15 = .ret ∧ ∀ s : State,
    (s.cfg.linkReg = .q → exec .ret s = .next { began s with z := s.q.setWidth 12 }) ∧
      (s.cfg.linkReg = .l → exec .ret s = .next { began s with z := s.l.setWidth 12 }) ∧
      ∀ k : Addr, ∃ t u, exec (.tc k) s = .next t ∧ t.z = k ∧ exec .ret t = .next u ∧ u.z = s.z + 1#12

/-- R190: a value written to Z as an ordinary operand is the next fetch address exactly, and a skip of TS counts from it
(D26); INCR Z skips one word (R113). -/
def Obligations.WritingZTransfers : Prop :=
  ∀ s : State,
    (ovf s.a = .none → exec (.ts 5#10) s = .next { began s with z := s.a.setWidth 12 }) ∧
      (ovf s.a ≠ .none → exec (.ts 5#10) s =
        .next { began s with z := s.a.setWidth 12 + 1#12, a := indicator (ovf s.a) }) ∧
      exec (.incr 5#10) s = .next { began s with z := s.z + 2#12 }

/-- R143, R144: CCS: the diminished magnitude in A and the four-way skip, counted from the address of the CCS. -/
def Obligations.CcsCountsAndSkips : Prop :=
  ∀ (s : State) (e : EField), s.cfg.legal = true →
    decode false (1#3 ++ (0#2 ++ e : Addr)) = .ccs e ∧
      (Readable s.cfg (eAddr e) → ∃ v A, read16 (began s) (eAddr e) = .ok v ∧
        A.toNat = (val16 v).natAbs - 1 ∧
        (v = 0x0000#16 → exec (.ccs e) s = .next { began s with a := A, z := s.z + 2#12 }) ∧
        (v = 0xFFFF#16 → exec (.ccs e) s = .next { began s with a := A, z := s.z + 4#12 }) ∧
        (val16 v < 0 → exec (.ccs e) s = .next { began s with a := A, z := s.z + 3#12 }) ∧
        (0 < val16 v → exec (.ccs e) s = .next { began s with a := A, z := s.z + 1#12 })) ∧
      StopsAtReserved (.ccs e) (eAddr e) s

/-- R142, R145, R146: TCF transfers always, BZF when A is +0 or -0, BZMF when A is +0 or has bit 15 set; otherwise the
next word runs; none of them changes anything but Z. -/
def Obligations.BranchesToFixed : Prop :=
  ∀ (s : State) (f : Addr),
    (1024 ≤ f.toNat →
        decode false (1#3 ++ f) = .tcf f ∧ decode true (1#3 ++ f) = .bzf f ∧ decode true (6#3 ++ f) = .bzmf f) ∧
      exec (.tcf f) s = .next { began s with z := f } ∧
      (s.a = 0x0000#16 ∨ s.a = 0xFFFF#16 → exec (.bzf f) s = .next { began s with z := f }) ∧
      (s.a ≠ 0x0000#16 → s.a ≠ 0xFFFF#16 → exec (.bzf f) s = .next (began s)) ∧
      (s.a = 0x0000#16 ∨ s.a.getLsbD 15 = true → exec (.bzmf f) s = .next { began s with z := f }) ∧
      (s.a ≠ 0x0000#16 → s.a.getLsbD 15 = false → exec (.bzmf f) s = .next (began s))

/-- R152, R153: INDEX sets BIAS from its operand; the extended form sets EXT again, the basic form leaves it 0. -/
def Obligations.IndexSetsTheBias : Prop :=
  ∀ (s : State) (e : EField) (k : Addr), s.cfg.legal = true →
    (e ≠ 15#10 → decode false (5#3 ++ (0#2 ++ e : Addr)) = .index e) ∧ decode true (5#3 ++ k) = .indexK k ∧
      (Readable s.cfg (eAddr e) → ∃ v, read16 (began s) (eAddr e) = .ok v ∧
        exec (.index e) s = .next { began s with bias := v }) ∧
      (Readable s.cfg k → ∃ v, read16 (began s) k = .ok v ∧
        exec (.indexK k) s = .next { began s with bias := v, ext := true }) ∧
      StopsAtReserved (.index e) (eAddr e) s ∧ StopsAtOperand (.indexK k) k s

/-- R156, R157, R158: EXTEND sets EXT, RELINT sets IE, INHINT clears IE; each does nothing else but move on. -/
def Obligations.ImpliedInstructionsSetFlags : Prop :=
  decode false 0o00006#15 = .extend ∧ decode false 0o00003#15 = .relint ∧ decode false 0o00004#15 = .inhint ∧
    ∀ s : State,
      exec .extend s = .next { began s with ext := true } ∧
        exec .relint s = .next { began s with ie := true } ∧
        exec .inhint s = .next { began s with ie := false }

/-! ### What the CORE does not implement -/

/-- R123, R159, R160: DV, RESUME, the I/O channel instructions and EDRUPT raise Unimplemented at decode, with the
instruction's name; no register or cell changes, and Z stays at the instruction. With ADMIT_UNDESCRIBED false, XCH, LXCH,
QXCH, DXCH and SU do the same (R9, R134).
The name an I/O word records is IO with its IOP and channel, after R57, which is log 14 (DEDUCED). -/
def Obligations.UnimplementedInstructions : Prop :=
  ∀ (s : State) (e : EField) (ch : Channel),
    decode true (1#3 ++ (0#2 ++ e : Addr)) = .dv e ∧ exec (.dv e) s = .next (notImplemented s (.dv e) .dv) ∧
      decode false 0o50017#15 = .resume ∧ exec .resume s = .next (notImplemented s .resume .resume) ∧
      (∀ (iop : BitVec 3) (i : Instr), decode true (0#3 ++ (iop ++ ch : Addr)) = i →
        i = (match iop.toNat with
          | 0 => .read ch | 1 => .write ch | 2 => .rand ch | 3 => .wand ch
          | 4 => .ror ch | 5 => .wor ch | 6 => .rxor ch | _ => .edrupt ch) ∧
        exec i s = .next (notImplemented s i (.io iop ch))) ∧
      (s.cfg.admitUndescribed = false →
        exec (.xch e) s = .next (notImplemented s (.xch e) .xch) ∧
          exec (.lxch e) s = .next (notImplemented s (.lxch e) .lxch) ∧
          exec (.qxch e) s = .next (notImplemented s (.qxch e) .qxch) ∧
          exec (.dxch e) s = .next (notImplemented s (.dxch e) .dxch) ∧
          exec (.su e) s = .next (notImplemented s (.su e) .su))

/-! ### Frames -/

/-- The frame of the instructions that store nothing and write at most A (R107, R139): AD, SU, MSU, MASK, CA, CS, CCS, BZF,
BZMF, TCF, INDEX, EXTEND. Every cell, L, Q, the bank cell, IE and the configuration are as before, faulting or not; A is
as before for those that do not name it as a destination. -/
def Obligations.FrameWithoutStores : Prop :=
  ∀ (i : Instr) (s t : State) (e : EField) (k : Addr),
    i ∈ ([.ad k, .su e, .msu e, .mask k, .ca k, .cs k, .ccs e, .bzf k, .bzmf k, .tcf k, .index e, .indexK k,
      .extend] : List Instr) →
    exec i s = .next t →
    KeepsCellsBut [] s t ∧ t.l = s.l ∧ t.q = s.q ∧ t.bb = s.bb ∧ t.ie = s.ie ∧ t.cfg = s.cfg ∧
      (i ∈ ([.bzf k, .bzmf k, .tcf k, .index e, .indexK k, .extend] : List Instr) → t.a = s.a)

/-- The frame of the implied control instructions and TC (R141, R155, R157, R158): no cell, A or bank cell changes; TC
writes the link register and no other, RETURN, RELINT and INHINT none; IE changes by RELINT and INHINT alone. -/
def Obligations.FrameOfControl : Prop :=
  ∀ (i : Instr) (s t : State) (k : Addr),
    i ∈ ([.tc k, .ret, .relint, .inhint] : List Instr) → exec i s = .next t →
    KeepsCellsBut [] s t ∧ t.a = s.a ∧ t.bb = s.bb ∧ t.cfg = s.cfg ∧ t.ext = false ∧ t.bias = 0#16 ∧
      (i ≠ .tc k ∨ s.cfg.linkReg = .q → t.l = s.l) ∧ (i ≠ .tc k ∨ s.cfg.linkReg = .l → t.q = s.q) ∧
      (i = .tc k ∨ i = .ret → t.ie = s.ie)

/-- The frame of the storing instructions with one operand (R110, R113, R115, R116, R132, R135): TS, INCR, AUG, DIM, ADS and
XCH change no cell but the one at E, and L, Q and the bank cell only when E names them; INCR, AUG and DIM change A only
when E is A. -/
def Obligations.FrameOfStores : Prop :=
  ∀ (i : Instr) (s t : State) (e : EField),
    i ∈ ([.ts e, .incr e, .aug e, .dim e, .ads e, .xch e] : List Instr) → exec i s = .next t →
    KeepsCellsBut [eAddr e] s t ∧ (eAddr e ≠ 1#12 → t.l = s.l) ∧ (eAddr e ≠ 2#12 → t.q = s.q) ∧
      KeepsBankCellBut [eAddr e] s t ∧ t.ie = s.ie ∧ t.cfg = s.cfg ∧
      (i ∈ ([.incr e, .aug e, .dim e] : List Instr) → eAddr e ≠ 0#12 → t.a = s.a)

/-- The frame of the instructions that write L, Q or a pair (R119, R121, R129, R130, R136, R137, R138): DCA, DCS and MP
change A, L and no cell; DAS and DXCH no cell but those at E and E - 1; LXCH and QXCH none but that at E, and A only
when E is A. -/
def Obligations.FrameOfPairs : Prop :=
  ∀ (s t : State) (e : EField) (k : Addr),
    (∀ i ∈ ([.dca k, .dcs k, .mp k] : List Instr), exec i s = .next t →
        KeepsCellsBut [] s t ∧ t.q = s.q ∧ t.bb = s.bb ∧ t.ie = s.ie ∧ t.cfg = s.cfg) ∧
      (∀ i ∈ ([.das e, .dxch e] : List Instr), exec i s = .next t →
        KeepsCellsBut [eAddr e, eAddr e - 1#12] s t ∧
          (eAddr e ≠ 2#12 → eAddr e - 1#12 ≠ 2#12 → t.q = s.q) ∧
          KeepsBankCellBut [eAddr e, eAddr e - 1#12] s t ∧ t.ie = s.ie ∧ t.cfg = s.cfg) ∧
      (∀ i ∈ ([.lxch e, .qxch e] : List Instr), exec i s = .next t →
        KeepsCellsBut [eAddr e] s t ∧ KeepsBankCellBut [eAddr e] s t ∧ (eAddr e ≠ 0#12 → t.a = s.a) ∧
          (i = .lxch e → eAddr e ≠ 2#12 → t.q = s.q) ∧ (i = .qxch e → eAddr e ≠ 1#12 → t.l = s.l) ∧
          t.ie = s.ie ∧ t.cfg = s.cfg)
end

