-- ==== Sys2Proof/Laws/Alu.lean ====
section
/-! SUPPORT. The small laws of the ALU and the bookkeeper (R81 to R86). -/

namespace Sys2Proof.Machine

/-- The modified add in natural numbers (R81). -/
theorem add_toNat (x y : Word) :
    (add x y).toNat = if 65536 ≤ x.toNat + y.toNat then x.toNat + y.toNat - 65535 else x.toNat + y.toNat := by
  have hx := x.isLt
  have hy := y.isLt
  have hs : (x.setWidth 17 + y.setWidth 17).toNat = x.toNat + y.toNat := by
    simp only [BitVec.toNat_add, BitVec.toNat_setWidth]
    omega
  have hb : (x.setWidth 17 + y.setWidth 17).getLsbD 16 = decide (65536 ≤ x.toNat + y.toNat) := by
    rw [BitVec.getLsbD, hs, Nat.testBit_eq_decide_div_mod_eq]
    congr 1
    apply propext
    omega
  unfold add
  by_cases h : 65536 ≤ x.toNat + y.toNat
  · simp only [hb, h, decide_true, if_true, BitVec.toNat_add, BitVec.toNat_setWidth, BitVec.toNat_ofNat]
    omega
  · simp only [hb, h, decide_false, Bool.false_eq_true, if_false, BitVec.toNat_setWidth, BitVec.toNat_add]
    omega

/-- A zero summand changes nothing (R82). -/
@[simp] theorem add_zero (x : Word) : add x 0#16 = x := by
  apply BitVec.eq_of_toNat_eq
  rw [add_toNat]
  have hx := x.isLt
  simp
  omega

theorem getLsbD_sext16 (v : Word) (i : Nat) (h : i < 16) :
    (sext16 v).getLsbD i = if i = 15 then v.getLsbD 14 else v.getLsbD i := by
  simp only [sext16, extend15, BitVec.getLsbD_signExtend, BitVec.msb_setWidth, BitVec.getLsbD_setWidth]
  by_cases h15 : i = 15
  · simp [h15]
  · have : i < 15 := by omega
    simp [h15, h, this]

theorem getLsbD_correct (v : Word) (i : Nat) (h : i < 16) :
    (correct v).getLsbD i = if i = 14 then v.getLsbD 15 else v.getLsbD i := by
  unfold correct
  have hm : ∀ j, j < 16 → (0x4000#16).getLsbD j = decide (j = 14) := by decide
  split
  next e =>
    split
    next h14 => rw [h14, e]
    next => rfl
  next e =>
    rw [BitVec.getLsbD_xor, hm i h]
    split
    next h14 =>
      subst h14
      cases h15 : v.getLsbD 15 <;> cases h14 : v.getLsbD 14 <;> simp_all
    next h14 => simp only [h14, decide_false, Bool.xor_false]

/-- The canonical form by its two top bits (R12). -/
theorem canonical_iff (v : Word) : canonical v = true ↔ v.getLsbD 15 = v.getLsbD 14 := by
  simp only [canonical, beq_iff_eq]

/-- The sign-extended form is canonical (R86). -/
@[simp] theorem canonical_sext16 (v : Word) : canonical (sext16 v) = true := by
  rw [canonical_iff, getLsbD_sext16 v 15 (by omega), getLsbD_sext16 v 14 (by omega)]
  rfl

/-- A corrected value is canonical (R85). -/
@[simp] theorem canonical_correct (v : Word) : canonical (correct v) = true := by
  rw [canonical_iff, getLsbD_correct v 15 (by omega), getLsbD_correct v 14 (by omega)]
  rfl

/-- Sign extension keeps a canonical value (R86). -/
theorem sext16_of_canonical {v : Word} (h : canonical v = true) : sext16 v = v := by
  apply BitVec.eq_of_getLsbD_eq
  intro i hi
  rw [getLsbD_sext16 v i hi]
  split
  next h15 => rw [h15, (canonical_iff v).mp h]
  next => rfl

/-- Correction keeps a canonical value (R85). -/
theorem correct_of_canonical {v : Word} (h : canonical v = true) : correct v = v := by
  rw [correct, if_pos ((canonical_iff v).mp h)]

/-- Either width enforcement gives the canonical form (R35). -/
@[simp] theorem canonical_narrow (c : Config) (v : Word) : canonical (narrow c v) = true := by
  unfold narrow
  split <;> simp

/-- Either width enforcement keeps a canonical value (R35). -/
theorem narrow_of_canonical {c : Config} {v : Word} (h : canonical v = true) : narrow c v = v := by
  unfold narrow
  split
  · exact sext16_of_canonical h
  · exact correct_of_canonical h

/-- A sign-extended word is canonical (R86). -/
@[simp] theorem canonical_extend15 (w : Word15) : canonical (extend15 w) = true := by
  rw [canonical_iff, extend15, BitVec.getLsbD_signExtend, BitVec.getLsbD_signExtend, BitVec.msb_eq_getLsbD_last]
  rfl

/-- A program-counter value is canonical as a word (R18). -/
@[simp] theorem canonical_zext16 (z : Addr) : canonical (zext16 z) = true := by
  simp [canonical, zext16]

/-- A value has no pending overflow exactly when it is canonical (R84). -/
theorem ovf_eq_none_iff (v : Word) : ovf v = .none ↔ canonical v = true := by
  unfold ovf canonical
  cases h15 : v.getLsbD 15 <;> cases h14 : v.getLsbD 14 <;> simp

/-- A zero bias leaves the fetched word (R99). -/
@[simp] theorem biasAdd_zero (c : Config) (raw : Word) : biasAdd c raw 0#16 = raw := by
  unfold biasAdd
  split <;> simp

/-! ### The two top bits and the integers, in natural numbers -/

theorem getLsbD_15 (v : Word) : v.getLsbD 15 = decide (32768 ≤ v.toNat) := by
  rw [BitVec.getLsbD, Nat.testBit_eq_decide_div_mod_eq]
  have := v.isLt
  congr 1
  apply propext
  omega

theorem getLsbD_14 (v : Word) : v.getLsbD 14 = decide (16384 ≤ v.toNat % 32768) := by
  rw [BitVec.getLsbD, Nat.testBit_eq_decide_div_mod_eq]
  congr 1
  apply propext
  omega

/-- R83 in natural numbers. -/
theorem val16_eq (v : Word) : val16 v = if 32768 ≤ v.toNat then (v.toNat : Int) - 65535 else v.toNat := by
  unfold val16
  rw [getLsbD_15, BitVec.toNat_not]
  have := v.isLt
  by_cases h : 32768 ≤ v.toNat <;> simp [h]
  omega

/-- R88 in natural numbers. -/
theorem toSigned15_eq (v : Word15) :
    toSigned15 v = if 16384 ≤ v.toNat then (v.toNat : Int) - 32767 else v.toNat := by
  have hb : v.getLsbD 14 = decide (16384 ≤ v.toNat) := by
    rw [BitVec.getLsbD, Nat.testBit_eq_decide_div_mod_eq]
    have := v.isLt
    congr 1
    apply propext
    omega
  unfold toSigned15
  rw [hb, BitVec.toNat_not]
  have := v.isLt
  by_cases h : 16384 ≤ v.toNat <;> simp [h]
  omega

/-- Taking the low 15 bits undoes `extend15`. -/
@[simp] theorem low15_extend15 (w : Word15) : low15 (extend15 w) = w := by
  apply BitVec.eq_of_getLsbD_eq
  intro i hi
  rw [low15, BitVec.getLsbD_setWidth, extend15, BitVec.getLsbD_signExtend]
  simp [hi, show i < 16 by omega]

end Sys2Proof.Machine
end

