-- ==== Sys2Proof/Laws/Decode.lean ====
section
/-! SUPPORT. Fields and words are inverse to each other (R50). -/

namespace Sys2Proof

@[simp] theorem fieldOp_wordK (op : BitVec 3) (k : Addr) : fieldOp (wordK op k) = op := by
  unfold fieldOp wordK
  exact BitVec.extractLsb'_append_eq_left

@[simp] theorem fieldK_wordK (op : BitVec 3) (k : Addr) : fieldK (wordK op k) = k := by
  unfold fieldK wordK
  exact BitVec.extractLsb'_append_eq_right

/-- Opcode and general address make up the word. -/
theorem wordK_fields (w : Word15) : wordK (fieldOp w) (fieldK w) = w := by
  unfold wordK fieldOp fieldK
  apply BitVec.eq_of_getLsbD_eq
  intro i hi
  simp only [BitVec.getLsbD_append, BitVec.getLsbD_extractLsb']
  by_cases h : i < 12
  · simp [h]
  · have h' : i - 12 < 3 := by omega
    simp [h, h', show 12 + (i - 12) = i by omega]

/-- The quarter-code is the top of the general address. -/
theorem fieldQc_eq (w : Word15) : fieldQc w = (fieldK w).extractLsb' 10 2 := by
  unfold fieldQc fieldK
  apply BitVec.eq_of_getLsbD_eq
  intro i hi
  simp only [BitVec.getLsbD_extractLsb']
  have : 10 + i < 12 := by omega
  simp [this]

/-- The erasable address is the rest of the general address. -/
theorem fieldE_eq (w : Word15) : fieldE w = (fieldK w).extractLsb' 0 10 := by
  unfold fieldE fieldK
  apply BitVec.eq_of_getLsbD_eq
  intro i hi
  simp only [BitVec.getLsbD_extractLsb']
  have : i < 12 := by omega
  simp [this]

/-- IOP is the top of the general address. -/
theorem fieldIop_eq (w : Word15) : fieldIop w = (fieldK w).extractLsb' 9 3 := by
  unfold fieldIop fieldK
  apply BitVec.eq_of_getLsbD_eq
  intro i hi
  simp only [BitVec.getLsbD_extractLsb']
  have : 9 + i < 12 := by omega
  simp [this]

/-- CH is the rest of the general address. -/
theorem fieldCh_eq (w : Word15) : fieldCh w = (fieldK w).extractLsb' 0 9 := by
  unfold fieldCh fieldK
  apply BitVec.eq_of_getLsbD_eq
  intro i hi
  simp only [BitVec.getLsbD_extractLsb']
  have : i < 12 := by omega
  simp [this]

theorem wordE_eq (op : BitVec 3) (qc : BitVec 2) (e : EField) : wordE op qc e = wordK op (qc ++ e) := rfl

theorem wordIo_eq (iop : BitVec 3) (ch : Channel) : wordIo iop ch = wordK 0#3 (iop ++ ch) := rfl

@[simp] theorem fieldOp_wordE (op : BitVec 3) (qc : BitVec 2) (e : EField) : fieldOp (wordE op qc e) = op :=
  fieldOp_wordK op _

@[simp] theorem fieldQc_wordE (op : BitVec 3) (qc : BitVec 2) (e : EField) : fieldQc (wordE op qc e) = qc := by
  rw [fieldQc_eq, wordE_eq, fieldK_wordK]
  exact BitVec.extractLsb'_append_eq_left

@[simp] theorem fieldE_wordE (op : BitVec 3) (qc : BitVec 2) (e : EField) : fieldE (wordE op qc e) = e := by
  rw [fieldE_eq, wordE_eq, fieldK_wordK]
  exact BitVec.extractLsb'_append_eq_right

@[simp] theorem fieldOp_wordIo (iop : BitVec 3) (ch : Channel) : fieldOp (wordIo iop ch) = 0#3 :=
  fieldOp_wordK 0#3 _

@[simp] theorem fieldIop_wordIo (iop : BitVec 3) (ch : Channel) : fieldIop (wordIo iop ch) = iop := by
  rw [fieldIop_eq, wordIo_eq, fieldK_wordK]
  exact BitVec.extractLsb'_append_eq_left

@[simp] theorem fieldCh_wordIo (iop : BitVec 3) (ch : Channel) : fieldCh (wordIo iop ch) = ch := by
  rw [fieldCh_eq, wordIo_eq, fieldK_wordK]
  exact BitVec.extractLsb'_append_eq_right

/-- Opcode, quarter-code and erasable address make up the word. -/
theorem wordE_fields (w : Word15) : wordE (fieldOp w) (fieldQc w) (fieldE w) = w := by
  rw [wordE_eq]
  conv => rhs; rw [← wordK_fields w]
  congr 1
  rw [fieldQc_eq, fieldE_eq]
  apply BitVec.eq_of_getLsbD_eq
  intro i hi
  simp only [BitVec.getLsbD_append, BitVec.getLsbD_extractLsb']
  by_cases h : i < 10
  · simp [h]
  · have h' : i - 10 < 2 := by omega
    simp [h, h', show 10 + (i - 10) = i by omega]

/-- IOP and channel make up an opcode 0 word. -/
theorem wordIo_fields (w : Word15) (h0 : fieldOp w = 0#3) : wordIo (fieldIop w) (fieldCh w) = w := by
  rw [wordIo_eq]
  conv => rhs; rw [← wordK_fields w, h0]
  congr 1
  rw [fieldIop_eq, fieldCh_eq]
  apply BitVec.eq_of_getLsbD_eq
  intro i hi
  simp only [BitVec.getLsbD_append, BitVec.getLsbD_extractLsb']
  by_cases h : i < 9
  · simp [h]
  · have h' : i - 9 < 3 := by omega
    simp [h, h', show 9 + (i - 9) = i by omega]

/-- The quarter-code is 0 exactly when the general address lies below 1024 (R51). -/
theorem fieldQc_eq_zero_iff (w : Word15) : fieldQc w = 0#2 ↔ (fieldK w).toNat < 1024 := by
  rw [fieldQc_eq, ← BitVec.toNat_inj, BitVec.extractLsb'_toNat, Nat.shiftRight_eq_div_pow]
  have := (fieldK w).isLt
  simp only [BitVec.toNat_ofNat]
  omega

end Sys2Proof
end

