-- ==== Sys2Proof/Laws/Memory.lean ====
section
/-! SUPPORT. The laws of memory cells: what a set leaves, and that it keeps the canonical form. -/

namespace Sys2Proof.Machine

/-- Every listed address is above `a`. -/
def Memory.above (a : Nat) (m : Memory) : Prop := ∀ c ∈ m, a < c.1

theorem Memory.wf_cons (c : Nat × Word) (m : Memory) :
    Memory.wf (c :: m) = true ↔ c.2 ≠ 0#16 ∧ Memory.above c.1 m ∧ Memory.wf m = true := by
  simp [Memory.wf, Memory.above, List.all_eq_true, and_assoc]

theorem Memory.get_of_above {m : Memory} {a : Nat} (h : Memory.above a m) : Memory.get m a = 0#16 := by
  induction m with
  | nil => rfl
  | cons c m ih =>
    have hc := h c (by simp)
    rw [Memory.get, if_neg (by omega)]
    exact ih fun d hd => h d (by simp [hd])

/-- A set leaves every other cell, whatever the list. -/
theorem Memory.get_set_of_ne (m : Memory) {a b : Nat} (v : Word) (h : b ≠ a) :
    Memory.get (Memory.set m a v) b = Memory.get m b := by
  induction m with
  | nil =>
    unfold Memory.set
    split <;> simp [Memory.get, h]
  | cons c m ih =>
    unfold Memory.set
    split
    · split <;> simp [Memory.get, h]
    · split
      next hac =>
        split <;> simp [Memory.get, ← hac, h]
      next =>
        simp [Memory.get, ih]

/-- A set cell reads back. -/
theorem Memory.get_set_self {m : Memory} (h : Memory.wf m = true) (a : Nat) (v : Word) :
    Memory.get (Memory.set m a v) a = v := by
  induction m with
  | nil =>
    unfold Memory.set
    split <;> simp_all [Memory.get]
  | cons c m ih =>
    obtain ⟨hc, hab, hm⟩ := (Memory.wf_cons c m).mp h
    unfold Memory.set
    split
    next hlt =>
      split
      next hv =>
        rw [Memory.get, if_neg (by omega), hv]
        exact Memory.get_of_above fun d hd => by have := hab d hd; omega
      next => simp [Memory.get]
    next =>
      split
      next heq =>
        split
        next hv =>
          rw [hv, heq]
          exact Memory.get_of_above hab
        next => simp [Memory.get]
      next hne =>
        simp [Memory.get, hne, ih hm]

/-- The cells of a set list are the new one and old ones. -/
theorem Memory.mem_set {m : Memory} {a : Nat} {v : Word} {c : Nat × Word} (h : c ∈ Memory.set m a v) :
    c = (a, v) ∨ c ∈ m := by
  induction m with
  | nil =>
    unfold Memory.set at h
    split at h <;> simp_all
  | cons d m ih =>
    unfold Memory.set at h
    split at h
    · split at h <;> simp_all
    · split at h
      · split at h
        · exact .inr (by simp [h])
        · simp only [List.mem_cons] at h
          rcases h with h | h
          · exact .inl h
          · exact .inr (by simp [h])
      · simp only [List.mem_cons] at h
        rcases h with h | h
        · exact .inr (by simp [h])
        · rcases ih h with h | h
          · exact .inl h
          · exact .inr (by simp [h])

/-- A set keeps the canonical form. -/
theorem Memory.wf_set {m : Memory} (h : Memory.wf m = true) (a : Nat) (v : Word) :
    Memory.wf (Memory.set m a v) = true := by
  induction m with
  | nil =>
    unfold Memory.set
    split <;> simp_all [Memory.wf]
  | cons c m ih =>
    obtain ⟨hc, hab, hm⟩ := (Memory.wf_cons c m).mp h
    unfold Memory.set
    split
    next hlt =>
      split
      next => exact h
      next hv =>
        rw [Memory.wf_cons]
        refine ⟨hv, fun d hd => ?_, h⟩
        rcases List.mem_cons.mp hd with rfl | hd
        · exact hlt
        · have := hab d hd
          omega
    next hge =>
      split
      next heq =>
        split
        next => exact hm
        next hv =>
          rw [Memory.wf_cons]
          exact ⟨hv, fun d hd => by have := hab d hd; simp only; omega, hm⟩
      next hne =>
        rw [Memory.wf_cons]
        refine ⟨hc, fun d hd => ?_, ih hm⟩
        rcases Memory.mem_set hd with rfl | hd
        · simp only
          omega
        · exact hab d hd

/-- The loader keeps the canonical form (R183). -/
theorem loadWords_wf {m : Memory} (h : m.wf = true) (n : Nat) (image : List Word) :
    (loadWords m n image).wf = true := by
  induction image generalizing m n with
  | nil => exact h
  | cons w rest ih => exact ih (Memory.wf_set h n _) (n + 1)

/-- The cells of a loaded memory are old ones, or image cells in 15-bit form in the loaded range (R183). -/
theorem mem_loadWords {m : Memory} {n : Nat} {image : List Word} {c : Nat × Word}
    (h : c ∈ loadWords m n image) :
    c ∈ m ∨ (n ≤ c.1 ∧ c.1 < n + image.length ∧ ∃ w, c.2 = sext16 w) := by
  induction image generalizing m n with
  | nil => exact .inl h
  | cons w rest ih =>
    rcases ih h with h | ⟨h1, h2, h3⟩
    · rcases Memory.mem_set h with rfl | h
      · exact .inr ⟨Nat.le_refl _, by simp, w, rfl⟩
      · exact .inl h
    · exact .inr ⟨by omega, by simp only [List.length_cons]; omega, h3⟩

/-- The reset memory is canonical. -/
theorem reset_mem_wf : State.reset.mem.wf = true := rfl

/-- A memory whose listed cells are canonical reads canonical values everywhere. -/
theorem Memory.canonical_get {m : Memory} (h : ∀ c ∈ m, canonical c.2 = true) (n : Nat) :
    canonical (m.get n) = true := by
  induction m with
  | nil => exact (by decide : canonical 0#16 = true)
  | cons c m ih =>
    rw [Memory.get]
    split
    · exact h c (by simp)
    · exact ih fun d hd => h d (by simp [hd])

end Sys2Proof.Machine
end

