-- ==== Sys2Proof/Laws/State.lean ====
section
/-! SUPPORT. One lemma for each field of the state under each update (R13). -/

namespace Sys2Proof.Machine

variable (s : State)

@[simp] theorem State.setA_cfg (v : Word) : (s.setA v).cfg = s.cfg := rfl
@[simp] theorem State.setA_a (v : Word) : (s.setA v).a = v := rfl
@[simp] theorem State.setA_l (v : Word) : (s.setA v).l = s.l := rfl
@[simp] theorem State.setA_q (v : Word) : (s.setA v).q = s.q := rfl
@[simp] theorem State.setA_bb (v : Word) : (s.setA v).bb = s.bb := rfl
@[simp] theorem State.setA_z (v : Word) : (s.setA v).z = s.z := rfl
@[simp] theorem State.setA_mem (v : Word) : (s.setA v).mem = s.mem := rfl
@[simp] theorem State.setA_ext (v : Word) : (s.setA v).ext = s.ext := rfl
@[simp] theorem State.setA_bias (v : Word) : (s.setA v).bias = s.bias := rfl
@[simp] theorem State.setA_ie (v : Word) : (s.setA v).ie = s.ie := rfl
@[simp] theorem State.setA_fault (v : Word) : (s.setA v).fault = s.fault := rfl

@[simp] theorem State.setL_cfg (v : Word) : (s.setL v).cfg = s.cfg := rfl
@[simp] theorem State.setL_a (v : Word) : (s.setL v).a = s.a := rfl
@[simp] theorem State.setL_l (v : Word) : (s.setL v).l = v := rfl
@[simp] theorem State.setL_q (v : Word) : (s.setL v).q = s.q := rfl
@[simp] theorem State.setL_bb (v : Word) : (s.setL v).bb = s.bb := rfl
@[simp] theorem State.setL_z (v : Word) : (s.setL v).z = s.z := rfl
@[simp] theorem State.setL_mem (v : Word) : (s.setL v).mem = s.mem := rfl
@[simp] theorem State.setL_ext (v : Word) : (s.setL v).ext = s.ext := rfl
@[simp] theorem State.setL_bias (v : Word) : (s.setL v).bias = s.bias := rfl
@[simp] theorem State.setL_ie (v : Word) : (s.setL v).ie = s.ie := rfl
@[simp] theorem State.setL_fault (v : Word) : (s.setL v).fault = s.fault := rfl

@[simp] theorem State.setQ_cfg (v : Word) : (s.setQ v).cfg = s.cfg := rfl
@[simp] theorem State.setQ_a (v : Word) : (s.setQ v).a = s.a := rfl
@[simp] theorem State.setQ_l (v : Word) : (s.setQ v).l = s.l := rfl
@[simp] theorem State.setQ_q (v : Word) : (s.setQ v).q = v := rfl
@[simp] theorem State.setQ_bb (v : Word) : (s.setQ v).bb = s.bb := rfl
@[simp] theorem State.setQ_z (v : Word) : (s.setQ v).z = s.z := rfl
@[simp] theorem State.setQ_mem (v : Word) : (s.setQ v).mem = s.mem := rfl
@[simp] theorem State.setQ_ext (v : Word) : (s.setQ v).ext = s.ext := rfl
@[simp] theorem State.setQ_bias (v : Word) : (s.setQ v).bias = s.bias := rfl
@[simp] theorem State.setQ_ie (v : Word) : (s.setQ v).ie = s.ie := rfl
@[simp] theorem State.setQ_fault (v : Word) : (s.setQ v).fault = s.fault := rfl

@[simp] theorem State.setBb_cfg (v : Word) : (s.setBb v).cfg = s.cfg := rfl
@[simp] theorem State.setBb_a (v : Word) : (s.setBb v).a = s.a := rfl
@[simp] theorem State.setBb_l (v : Word) : (s.setBb v).l = s.l := rfl
@[simp] theorem State.setBb_q (v : Word) : (s.setBb v).q = s.q := rfl
@[simp] theorem State.setBb_bb (v : Word) : (s.setBb v).bb = v := rfl
@[simp] theorem State.setBb_z (v : Word) : (s.setBb v).z = s.z := rfl
@[simp] theorem State.setBb_mem (v : Word) : (s.setBb v).mem = s.mem := rfl
@[simp] theorem State.setBb_ext (v : Word) : (s.setBb v).ext = s.ext := rfl
@[simp] theorem State.setBb_bias (v : Word) : (s.setBb v).bias = s.bias := rfl
@[simp] theorem State.setBb_ie (v : Word) : (s.setBb v).ie = s.ie := rfl
@[simp] theorem State.setBb_fault (v : Word) : (s.setBb v).fault = s.fault := rfl

@[simp] theorem State.setZ_cfg (v : Addr) : (s.setZ v).cfg = s.cfg := rfl
@[simp] theorem State.setZ_a (v : Addr) : (s.setZ v).a = s.a := rfl
@[simp] theorem State.setZ_l (v : Addr) : (s.setZ v).l = s.l := rfl
@[simp] theorem State.setZ_q (v : Addr) : (s.setZ v).q = s.q := rfl
@[simp] theorem State.setZ_bb (v : Addr) : (s.setZ v).bb = s.bb := rfl
@[simp] theorem State.setZ_z (v : Addr) : (s.setZ v).z = v := rfl
@[simp] theorem State.setZ_mem (v : Addr) : (s.setZ v).mem = s.mem := rfl
@[simp] theorem State.setZ_ext (v : Addr) : (s.setZ v).ext = s.ext := rfl
@[simp] theorem State.setZ_bias (v : Addr) : (s.setZ v).bias = s.bias := rfl
@[simp] theorem State.setZ_ie (v : Addr) : (s.setZ v).ie = s.ie := rfl
@[simp] theorem State.setZ_fault (v : Addr) : (s.setZ v).fault = s.fault := rfl

@[simp] theorem State.setMem_cfg (v : Memory) : (s.setMem v).cfg = s.cfg := rfl
@[simp] theorem State.setMem_a (v : Memory) : (s.setMem v).a = s.a := rfl
@[simp] theorem State.setMem_l (v : Memory) : (s.setMem v).l = s.l := rfl
@[simp] theorem State.setMem_q (v : Memory) : (s.setMem v).q = s.q := rfl
@[simp] theorem State.setMem_bb (v : Memory) : (s.setMem v).bb = s.bb := rfl
@[simp] theorem State.setMem_z (v : Memory) : (s.setMem v).z = s.z := rfl
@[simp] theorem State.setMem_mem (v : Memory) : (s.setMem v).mem = v := rfl
@[simp] theorem State.setMem_ext (v : Memory) : (s.setMem v).ext = s.ext := rfl
@[simp] theorem State.setMem_bias (v : Memory) : (s.setMem v).bias = s.bias := rfl
@[simp] theorem State.setMem_ie (v : Memory) : (s.setMem v).ie = s.ie := rfl
@[simp] theorem State.setMem_fault (v : Memory) : (s.setMem v).fault = s.fault := rfl

@[simp] theorem State.setExt_cfg (v : Bool) : (s.setExt v).cfg = s.cfg := rfl
@[simp] theorem State.setExt_a (v : Bool) : (s.setExt v).a = s.a := rfl
@[simp] theorem State.setExt_l (v : Bool) : (s.setExt v).l = s.l := rfl
@[simp] theorem State.setExt_q (v : Bool) : (s.setExt v).q = s.q := rfl
@[simp] theorem State.setExt_bb (v : Bool) : (s.setExt v).bb = s.bb := rfl
@[simp] theorem State.setExt_z (v : Bool) : (s.setExt v).z = s.z := rfl
@[simp] theorem State.setExt_mem (v : Bool) : (s.setExt v).mem = s.mem := rfl
@[simp] theorem State.setExt_ext (v : Bool) : (s.setExt v).ext = v := rfl
@[simp] theorem State.setExt_bias (v : Bool) : (s.setExt v).bias = s.bias := rfl
@[simp] theorem State.setExt_ie (v : Bool) : (s.setExt v).ie = s.ie := rfl
@[simp] theorem State.setExt_fault (v : Bool) : (s.setExt v).fault = s.fault := rfl

@[simp] theorem State.setBias_cfg (v : Word) : (s.setBias v).cfg = s.cfg := rfl
@[simp] theorem State.setBias_a (v : Word) : (s.setBias v).a = s.a := rfl
@[simp] theorem State.setBias_l (v : Word) : (s.setBias v).l = s.l := rfl
@[simp] theorem State.setBias_q (v : Word) : (s.setBias v).q = s.q := rfl
@[simp] theorem State.setBias_bb (v : Word) : (s.setBias v).bb = s.bb := rfl
@[simp] theorem State.setBias_z (v : Word) : (s.setBias v).z = s.z := rfl
@[simp] theorem State.setBias_mem (v : Word) : (s.setBias v).mem = s.mem := rfl
@[simp] theorem State.setBias_ext (v : Word) : (s.setBias v).ext = s.ext := rfl
@[simp] theorem State.setBias_bias (v : Word) : (s.setBias v).bias = v := rfl
@[simp] theorem State.setBias_ie (v : Word) : (s.setBias v).ie = s.ie := rfl
@[simp] theorem State.setBias_fault (v : Word) : (s.setBias v).fault = s.fault := rfl

@[simp] theorem State.setIe_cfg (v : Bool) : (s.setIe v).cfg = s.cfg := rfl
@[simp] theorem State.setIe_a (v : Bool) : (s.setIe v).a = s.a := rfl
@[simp] theorem State.setIe_l (v : Bool) : (s.setIe v).l = s.l := rfl
@[simp] theorem State.setIe_q (v : Bool) : (s.setIe v).q = s.q := rfl
@[simp] theorem State.setIe_bb (v : Bool) : (s.setIe v).bb = s.bb := rfl
@[simp] theorem State.setIe_z (v : Bool) : (s.setIe v).z = s.z := rfl
@[simp] theorem State.setIe_mem (v : Bool) : (s.setIe v).mem = s.mem := rfl
@[simp] theorem State.setIe_ext (v : Bool) : (s.setIe v).ext = s.ext := rfl
@[simp] theorem State.setIe_bias (v : Bool) : (s.setIe v).bias = s.bias := rfl
@[simp] theorem State.setIe_ie (v : Bool) : (s.setIe v).ie = v := rfl
@[simp] theorem State.setIe_fault (v : Bool) : (s.setIe v).fault = s.fault := rfl

@[simp] theorem State.beginExec_cfg : s.beginExec.cfg = s.cfg := rfl
@[simp] theorem State.beginExec_a : s.beginExec.a = s.a := rfl
@[simp] theorem State.beginExec_l : s.beginExec.l = s.l := rfl
@[simp] theorem State.beginExec_q : s.beginExec.q = s.q := rfl
@[simp] theorem State.beginExec_bb : s.beginExec.bb = s.bb := rfl
@[simp] theorem State.beginExec_z : s.beginExec.z = s.z + 1#12 := rfl
@[simp] theorem State.beginExec_mem : s.beginExec.mem = s.mem := rfl
@[simp] theorem State.beginExec_ext : s.beginExec.ext = false := rfl
@[simp] theorem State.beginExec_bias : s.beginExec.bias = 0#16 := rfl
@[simp] theorem State.beginExec_ie : s.beginExec.ie = s.ie := rfl
@[simp] theorem State.beginExec_fault : s.beginExec.fault = s.fault := rfl

@[simp] theorem State.takeFault_cfg (r : FaultRecord) : (s.takeFault r).cfg = s.cfg := rfl
@[simp] theorem State.takeFault_a (r : FaultRecord) : (s.takeFault r).a = s.a := rfl
@[simp] theorem State.takeFault_l (r : FaultRecord) : (s.takeFault r).l = s.l := rfl
@[simp] theorem State.takeFault_q (r : FaultRecord) : (s.takeFault r).q = s.q := rfl
@[simp] theorem State.takeFault_bb (r : FaultRecord) : (s.takeFault r).bb = s.bb := rfl
@[simp] theorem State.takeFault_z (r : FaultRecord) : (s.takeFault r).z = s.z := rfl
@[simp] theorem State.takeFault_mem (r : FaultRecord) : (s.takeFault r).mem = s.mem := rfl
@[simp] theorem State.takeFault_ext (r : FaultRecord) : (s.takeFault r).ext = s.ext := rfl
@[simp] theorem State.takeFault_bias (r : FaultRecord) : (s.takeFault r).bias = s.bias := rfl
@[simp] theorem State.takeFault_ie (r : FaultRecord) : (s.takeFault r).ie = s.ie := rfl
@[simp] theorem State.takeFault_fault (r : FaultRecord) : (s.takeFault r).fault = some r := rfl

@[simp] theorem State.skip_cfg (n : Addr) : (s.skip n).cfg = s.cfg := rfl
@[simp] theorem State.skip_a (n : Addr) : (s.skip n).a = s.a := rfl
@[simp] theorem State.skip_l (n : Addr) : (s.skip n).l = s.l := rfl
@[simp] theorem State.skip_q (n : Addr) : (s.skip n).q = s.q := rfl
@[simp] theorem State.skip_bb (n : Addr) : (s.skip n).bb = s.bb := rfl
@[simp] theorem State.skip_z (n : Addr) : (s.skip n).z = s.z + n := rfl
@[simp] theorem State.skip_mem (n : Addr) : (s.skip n).mem = s.mem := rfl
@[simp] theorem State.skip_ext (n : Addr) : (s.skip n).ext = s.ext := rfl
@[simp] theorem State.skip_bias (n : Addr) : (s.skip n).bias = s.bias := rfl
@[simp] theorem State.skip_ie (n : Addr) : (s.skip n).ie = s.ie := rfl
@[simp] theorem State.skip_fault (n : Addr) : (s.skip n).fault = s.fault := rfl

end Sys2Proof.Machine
end

