-- ==== Sys2Proof/Laws/Operands.lean ====
section
/-! SUPPORT. What the validator, Read, Read16, Write and store_corrected can do, said once (R32 to R36, R87). -/

namespace Sys2Proof.Machine

variable {s t : State} {a : Addr} {v : Word} {c : Config}

/-! ### The validator -/

/-- Every address above 7 falls into one of the last four regions, by its number alone (R32). -/
theorem region_of_gt_seven (h : 7 < a.toNat) :
    region c a =
      if a.toNat < c.erasableFirst then .reserved
      else if a.toNat ≤ 1023 then .erasable
      else if c.fixedBase ≤ a.toNat ∧ a.toNat < c.fixedBase + c.fixedSize then .bank
      else .noBank := by
  have hne : ∀ n : Nat, n ≤ 7 → a ≠ BitVec.ofNat 12 n := by
    intro n hn e
    rw [e, BitVec.toNat_ofNat] at h
    omega
  unfold region
  rw [if_neg (hne 0 (by omega)), if_neg (hne 1 (by omega)), if_neg (hne 2 (by omega)), if_neg (hne 3 (by omega)),
    if_neg (hne 4 (by omega)), if_neg (hne 5 (by omega)), if_neg (hne 6 (by omega)), if_neg (hne 7 (by omega))]

theorem legal_iff : c.legal = true ↔
    (c.erasableFirst = 48 ∨ c.erasableFirst = 49) ∧ 1024 ≤ c.fixedBase ∧ 1 ≤ c.fixedSize ∧ c.fixedSize ≤ 1024 ∧
      c.fixedBase + c.fixedSize ≤ 4096 := by
  simp [Config.legal, and_assoc]

theorem region_reserved (h : ReservedAt c a) : region c a = .reserved := by
  rw [region_of_gt_seven (by omega), if_pos h.2]

theorem region_erasable (hc : c.legal = true) (h : ErasableAt c a) : region c a = .erasable := by
  have := legal_iff.mp hc
  rw [region_of_gt_seven (by omega), if_neg (by omega), if_pos h.2]

theorem region_bank (hc : c.legal = true) (h : BankAt c a) : region c a = .bank := by
  have := legal_iff.mp hc
  rw [region_of_gt_seven (by omega), if_neg (by omega), if_neg (by omega), if_pos h]

theorem region_noBank (hc : c.legal = true) (h : NoBankAt c a) : region c a = .noBank := by
  have := legal_iff.mp hc
  rw [region_of_gt_seven (by omega), if_neg (by omega), if_neg (by omega), if_neg h.2]

/-- An address is a central register, reserved, erasable, in the bank or outside it (R32). -/
theorem address_cases (c : Config) (a : Addr) :
    a.toNat ≤ 7 ∨ ReservedAt c a ∨ ErasableAt c a ∨ BankAt c a ∨ NoBankAt c a := by
  by_cases h7 : a.toNat ≤ 7
  · exact .inl h7
  by_cases h1 : a.toNat < c.erasableFirst
  · exact .inr (.inl ⟨by omega, h1⟩)
  by_cases h2 : a.toNat ≤ 1023
  · exact .inr (.inr (.inl ⟨by omega, h2⟩))
  by_cases h3 : BankAt c a
  · exact .inr (.inr (.inr (.inl h3)))
  · exact .inr (.inr (.inr (.inr ⟨by omega, h3⟩)))

/-- A central register's address is one of eight. -/
theorem register_cases (h : a.toNat ≤ 7) :
    a = 0#12 ∨ a = 1#12 ∨ a = 2#12 ∨ a = 3#12 ∨ a = 4#12 ∨ a = 5#12 ∨ a = 6#12 ∨ a = 7#12 := by
  simp only [← BitVec.toNat_inj, BitVec.toNat_ofNat]
  omega

/-! ### Reads -/

theorem read_reserved (h : ReservedAt s.cfg a) :
    memRead s a = .error { code := .reservedAddress, addr := a } := by
  simp only [memRead, region_reserved h]

theorem read_noBank (hc : s.cfg.legal = true) (h : NoBankAt s.cfg a) :
    memRead s a = .error { code := .unimplementedBank, addr := a } := by
  simp only [memRead, region_noBank hc h]

theorem read_cell (hc : s.cfg.legal = true) (h : ErasableAt s.cfg a ∨ BankAt s.cfg a) :
    memRead s a = .ok (s.mem.get a.toNat) := by
  rcases h with h | h
  · simp only [memRead, region_erasable hc h]
  · simp only [memRead, region_bank hc h]

/-- A readable address answers (R32, R33). -/
theorem read_readable (hc : s.cfg.legal = true) (h : Readable s.cfg a) : ∃ v, memRead s a = .ok v := by
  rcases h with h | h
  · rcases register_cases h with rfl | rfl | rfl | rfl | rfl | rfl | rfl | rfl <;> exact ⟨_, rfl⟩
  · exact ⟨_, read_cell hc h⟩

theorem read16_of_read (h : memRead s a = .ok v) :
    read16 s a = .ok (if wide s.cfg a then v else sext16 v) := by
  simp only [read16, h]

theorem read16_readable (hc : s.cfg.legal = true) (h : Readable s.cfg a) : ∃ v, read16 s a = .ok v := by
  obtain ⟨v, hv⟩ := read_readable hc h
  exact ⟨_, read16_of_read hv⟩

theorem read16_reserved (h : ReservedAt s.cfg a) :
    read16 s a = .error { code := .reservedAddress, addr := a } := by
  simp only [read16, read_reserved h]

theorem read16_noBank (hc : s.cfg.legal = true) (h : NoBankAt s.cfg a) :
    read16 s a = .error { code := .unimplementedBank, addr := a } := by
  simp only [read16, read_noBank hc h]

/-- What a failed read says: the address, and which of the two faults it is (R163, R168). -/
theorem read_error {f : AccessFault} (h : memRead s a = .error f) :
    f.addr = a ∧ ((f.code = .reservedAddress ∧ ReservedAt s.cfg a) ∨
      (f.code = .unimplementedBank ∧ NoBankAt s.cfg a)) := by
  rcases Nat.lt_or_ge 7 a.toNat with h7 | h7
  · unfold memRead at h
    rw [region_of_gt_seven h7] at h
    by_cases h1 : a.toNat < s.cfg.erasableFirst
    · rw [if_pos h1] at h
      cases h
      exact ⟨rfl, .inl ⟨rfl, by omega, h1⟩⟩
    rw [if_neg h1] at h
    by_cases h2 : a.toNat ≤ 1023
    · rw [if_pos h2] at h
      cases h
    rw [if_neg h2] at h
    by_cases h3 : s.cfg.fixedBase ≤ a.toNat ∧ a.toNat < s.cfg.fixedBase + s.cfg.fixedSize
    · rw [if_pos h3] at h
      cases h
    · rw [if_neg h3] at h
      cases h
      exact ⟨rfl, .inr ⟨rfl, by omega, h3⟩⟩
  · rcases register_cases h7 with rfl | rfl | rfl | rfl | rfl | rfl | rfl | rfl <;> cases h

theorem read16_error {f : AccessFault} (h : read16 s a = .error f) :
    f.addr = a ∧ ((f.code = .reservedAddress ∧ ReservedAt s.cfg a) ∨
      (f.code = .unimplementedBank ∧ NoBankAt s.cfg a)) := by
  unfold read16 at h
  split at h
  next g hg =>
    cases h
    exact read_error hg
  next => cases h

/-! ### Writes -/

/-- Everything a successful write can do (R34). -/
theorem write_cases (h : memWrite s a v = .ok t) :
    (a = 0#12 ∧ t = s.setA v) ∨
      (a = 1#12 ∧ t = s.setL (if s.cfg.wideRegs = .accL then v else narrow s.cfg v)) ∨
      (a = 2#12 ∧ t = s.setQ (if s.cfg.wideRegs = .accQ then v else narrow s.cfg v)) ∨
      (a = 3#12 ∧ t = s.setBb (writeEb s.bb v)) ∨ (a = 4#12 ∧ t = s.setBb (writeFb s.bb v)) ∨
      (a = 5#12 ∧ t = s.setZ (v.setWidth 12)) ∨ (a = 6#12 ∧ t = s.setBb (writeBb v)) ∨
      (7 < a.toNat ∧ ErasableAt s.cfg a ∧ t = s.setMem (s.mem.set a.toNat (narrow s.cfg v))) := by
  rcases Nat.lt_or_ge 7 a.toNat with h7 | h7
  · unfold memWrite at h
    rw [region_of_gt_seven h7] at h
    by_cases h1 : a.toNat < s.cfg.erasableFirst
    · rw [if_pos h1] at h
      cases h
    rw [if_neg h1] at h
    by_cases h2 : a.toNat ≤ 1023
    · rw [if_pos h2] at h
      cases h
      exact .inr (.inr (.inr (.inr (.inr (.inr (.inr ⟨h7, ⟨by omega, h2⟩, rfl⟩))))))
    rw [if_neg h2] at h
    by_cases h3 : s.cfg.fixedBase ≤ a.toNat ∧ a.toNat < s.cfg.fixedBase + s.cfg.fixedSize
    · rw [if_pos h3] at h
      cases h
    · rw [if_neg h3] at h
      cases h
  · rcases register_cases h7 with rfl | rfl | rfl | rfl | rfl | rfl | rfl | rfl
    · cases h
      simp
    · cases h
      have : wide s.cfg 1#12 = decide (s.cfg.wideRegs = .accL) := by
        unfold wide
        cases s.cfg.wideRegs <;> rfl
      simp [this]
    · cases h
      have : wide s.cfg 2#12 = decide (s.cfg.wideRegs = .accQ) := by
        unfold wide
        cases s.cfg.wideRegs <;> rfl
      simp [this]
    · cases h
      simp
    · cases h
      simp
    · cases h
      simp
    · cases h
      simp
    · cases h

/-- What a failed write says (R166, R163, R167). -/
theorem write_error {f : AccessFault} (h : memWrite s a v = .error f) :
    f.addr = a ∧ ((f.code = .writeToZero ∧ a = 7#12) ∨ (f.code = .reservedAddress ∧ ReservedAt s.cfg a) ∨
      (f.code = .writeToFixed ∧ 1024 ≤ a.toNat)) := by
  rcases Nat.lt_or_ge 7 a.toNat with h7 | h7
  · unfold memWrite at h
    rw [region_of_gt_seven h7] at h
    by_cases h1 : a.toNat < s.cfg.erasableFirst
    · rw [if_pos h1] at h
      cases h
      exact ⟨rfl, .inr (.inl ⟨rfl, by omega, h1⟩)⟩
    rw [if_neg h1] at h
    by_cases h2 : a.toNat ≤ 1023
    · rw [if_pos h2] at h
      cases h
    rw [if_neg h2] at h
    by_cases h3 : s.cfg.fixedBase ≤ a.toNat ∧ a.toNat < s.cfg.fixedBase + s.cfg.fixedSize
    · rw [if_pos h3] at h
      cases h
      exact ⟨rfl, .inr (.inr ⟨rfl, by omega⟩)⟩
    · rw [if_neg h3] at h
      cases h
      exact ⟨rfl, .inr (.inr ⟨rfl, by omega⟩)⟩
  · rcases register_cases h7 with rfl | rfl | rfl | rfl | rfl | rfl | rfl | rfl <;> cases h
    exact ⟨rfl, .inl ⟨rfl, rfl⟩⟩

theorem write_zero (s : State) (v : Word) :
    memWrite s 7#12 v = .error { code := .writeToZero, addr := 7#12 } := rfl

theorem write_reserved (h : ReservedAt s.cfg a) :
    memWrite s a v = .error { code := .reservedAddress, addr := a } := by
  simp only [memWrite, region_reserved h]

theorem write_erasable (hc : s.cfg.legal = true) (h : ErasableAt s.cfg a) :
    memWrite s a v = .ok (s.setMem (s.mem.set a.toNat (narrow s.cfg v))) := by
  simp only [memWrite, region_erasable hc h]

/-- A writable address takes a write (R32, R34). -/
theorem write_writable (hc : s.cfg.legal = true) (h : Writable s.cfg a) (v : Word) : ∃ t, memWrite s a v = .ok t := by
  rcases h with h | h
  · rcases register_cases (a := a) (by omega) with rfl | rfl | rfl | rfl | rfl | rfl | rfl | rfl
    all_goals first | exact ⟨_, rfl⟩ | (simp at h)
  · exact ⟨_, write_erasable hc h⟩

/-- A write to L: raw when L is wide, narrowed otherwise (R20). -/
theorem write_l (s : State) (v : Word) :
    memWrite s lAddr v = .ok (s.setL (if s.cfg.wideRegs = .accL then v else narrow s.cfg v)) := by
  cases h : s.cfg.wideRegs <;> simp [memWrite, lAddr, region, wide, h]

/-- A write to Q: raw when Q is wide, narrowed otherwise (R20). -/
theorem write_q (s : State) (v : Word) :
    memWrite s qAddr v = .ok (s.setQ (if s.cfg.wideRegs = .accQ then v else narrow s.cfg v)) := by
  cases h : s.cfg.wideRegs <;> simp [memWrite, qAddr, region, wide, h]

/-- A write leaves the configuration and the flags (R41). -/
theorem write_flags (h : memWrite s a v = .ok t) :
    t.cfg = s.cfg ∧ t.ext = s.ext ∧ t.bias = s.bias ∧ t.ie = s.ie ∧ t.fault = s.fault := by
  rcases write_cases h with ⟨_, rfl⟩ | ⟨_, rfl⟩ | ⟨_, rfl⟩ | ⟨_, rfl⟩ | ⟨_, rfl⟩ | ⟨_, rfl⟩ | ⟨_, rfl⟩ |
    ⟨_, _, rfl⟩ <;> simp

/-- A write leaves every cell but its own (R41). -/
theorem write_mem_of_ne (h : memWrite s a v = .ok t) {n : Nat} (hn : n ≠ a.toNat) : t.mem.get n = s.mem.get n := by
  rcases write_cases h with ⟨_, rfl⟩ | ⟨_, rfl⟩ | ⟨_, rfl⟩ | ⟨_, rfl⟩ | ⟨_, rfl⟩ | ⟨_, rfl⟩ | ⟨_, rfl⟩ |
    ⟨_, _, rfl⟩ <;> simp
  exact Memory.get_set_of_ne _ _ hn

/-- A write leaves every register but the one it names; EB, FB and BB are one (R41). -/
theorem write_registers (h : memWrite s a v = .ok t) :
    (a ≠ 0#12 → t.a = s.a) ∧ (a ≠ 1#12 → t.l = s.l) ∧ (a ≠ 2#12 → t.q = s.q) ∧ (a ≠ 5#12 → t.z = s.z) ∧
      (a ≠ 3#12 → a ≠ 4#12 → a ≠ 6#12 → t.bb = s.bb) := by
  rcases write_cases h with ⟨rfl, rfl⟩ | ⟨rfl, rfl⟩ | ⟨rfl, rfl⟩ | ⟨rfl, rfl⟩ | ⟨rfl, rfl⟩ | ⟨rfl, rfl⟩ |
    ⟨rfl, rfl⟩ | ⟨_, _, rfl⟩ <;> simp

/-- A write keeps the canonical form of memory. -/
theorem write_keeps_mem_wf (h : memWrite s a v = .ok t) (hm : s.mem.wf = true) : t.mem.wf = true := by
  rcases write_cases h with ⟨_, rfl⟩ | ⟨_, rfl⟩ | ⟨_, rfl⟩ | ⟨_, rfl⟩ | ⟨_, rfl⟩ | ⟨_, rfl⟩ | ⟨_, rfl⟩ |
    ⟨_, _, rfl⟩ <;> simp [hm]
  exact Memory.wf_set hm _ _

/-! ### Corrected stores -/

/-- Only A and one other register below 3 are wide (R20). -/
theorem wide_of_two_lt (h : 2 < a.toNat) : wide c a = false := by
  have h0 : a ≠ 0#12 := fun e => by rw [e] at h; simp at h
  have h1 : a ≠ 1#12 := fun e => by rw [e] at h; simp at h
  have h2 : a ≠ 2#12 := fun e => by rw [e] at h; simp at h
  unfold wide
  cases hw : c.wideRegs <;> simp [*]

/-- The zero register reads +0 in accumulator form too (R19, R36). -/
theorem read16_seven (s : State) : read16 s 7#12 = .ok 0#16 := by
  rw [read16_of_read (v := 0#16) rfl, wide_of_two_lt (by decide)]
  rfl

theorem readable_of_writable (h : Writable c a) : Readable c a := by
  rcases h with h | h
  · exact .inl (by omega)
  · exact .inr (.inl h)

/-- A writable address takes a corrected store (R87). -/
theorem storeCorrected_writable (hc : s.cfg.legal = true) (h : Writable s.cfg a) (v : Word) :
    ∃ t, storeCorrected s v a = .ok t := write_writable hc h _

/-- A corrected store to an erasable cell leaves the corrected value there, under either width enforcement (R87). -/
theorem storeCorrected_erasable (hc : s.cfg.legal = true) (h : ErasableAt s.cfg a) (v : Word) :
    storeCorrected s v a = .ok (s.setMem (s.mem.set a.toNat (correct v))) := by
  have := legal_iff.mp hc
  have hw : wide s.cfg a = false := wide_of_two_lt (by omega)
  unfold storeCorrected storedForm
  rw [hw, if_neg (by decide), write_erasable hc h, narrow_of_canonical (canonical_correct v)]

end Sys2Proof.Machine
end

