-- ==== Sys2Proof/Laws/Step.lean ====
section
/-! SUPPORT. What a handler and a cycle can do, said once: rules to follow a handler access by access, and the forms a
next state takes (R97, R102, R161). -/

namespace Sys2Proof.Machine

variable {s t : State} {P : State → Prop} {Q : AccessFault → State → Prop}

/-- A handler that completes does so in a state with `P`, and one that faults does so with `Q`. -/
def Handled.Spec (P : State → Prop) (Q : AccessFault → State → Prop) : Handled → Prop
  | .done s => P s
  | .raised f s => Q f s

@[simp] theorem Handled.spec_done : (Handled.done s).Spec P Q = P s := rfl

@[simp] theorem Handled.spec_raised (f : AccessFault) : (Handled.raised f s).Spec P Q = Q f s := rfl

theorem onRead16_spec {a : Addr} {k : Word → Handled}
    (hok : ∀ v, read16 s a = .ok v → (k v).Spec P Q) (herr : ∀ f, read16 s a = .error f → Q f s) :
    (onRead16 s a k).Spec P Q := by
  unfold onRead16
  split
  next v h => exact hok v h
  next f h => exact herr f h

theorem onRead_spec {a : Addr} {k : Word → Handled}
    (hok : ∀ v, memRead s a = .ok v → (k v).Spec P Q) (herr : ∀ f, memRead s a = .error f → Q f s) :
    (onRead s a k).Spec P Q := by
  unfold onRead
  split
  next v h => exact hok v h
  next f h => exact herr f h

theorem onWrite_spec {a : Addr} {v : Word} {k : State → Handled}
    (hok : ∀ t, memWrite s a v = .ok t → (k t).Spec P Q) (herr : ∀ f, memWrite s a v = .error f → Q f s) :
    (onWrite s a v k).Spec P Q := by
  unfold onWrite
  split
  next t h => exact hok t h
  next f h => exact herr f h

theorem onStoreCorrected_spec {a : Addr} {v : Word} {k : State → Handled}
    (hok : ∀ t, memWrite s a (storedForm s.cfg a v) = .ok t → (k t).Spec P Q)
    (herr : ∀ f, memWrite s a (storedForm s.cfg a v) = .error f → Q f s) :
    (onStoreCorrected s v a k).Spec P Q := by
  unfold onStoreCorrected storeCorrected
  split
  next t h => exact hok t h
  next f h => exact herr f h

theorem onPair_spec {low : Addr} {k : Handled} (hk : low ≠ 0#12 → k.Spec P Q)
    (h0 : low = 0#12 → Q { code := .addressUnderflow, addr := 0#12 } s) : (onPair s low k).Spec P Q := by
  unfold onPair
  split
  next h => exact h0 h
  next h => exact hk h

theorem onRead16_ok {a : Addr} {v : Word} (h : read16 s a = .ok v) (k : Word → Handled) :
    onRead16 s a k = k v := by simp only [onRead16, h]

theorem onRead16_error {a : Addr} {f : AccessFault} (h : read16 s a = .error f) (k : Word → Handled) :
    onRead16 s a k = .raised f s := by simp only [onRead16, h]

theorem onWrite_ok {a : Addr} {v : Word} (h : memWrite s a v = .ok t) (k : State → Handled) :
    onWrite s a v k = k t := by simp only [onWrite, h]

theorem onWrite_error {a : Addr} {v : Word} {f : AccessFault} (h : memWrite s a v = .error f) (k : State → Handled) :
    onWrite s a v k = .raised f s := by simp only [onWrite, h]

theorem onStoreCorrected_ok {a : Addr} {v : Word} (h : storeCorrected s v a = .ok t) (k : State → Handled) :
    onStoreCorrected s v a k = k t := by simp only [onStoreCorrected, h]

theorem onStoreCorrected_error {a : Addr} {v : Word} {f : AccessFault} (h : storeCorrected s v a = .error f)
    (k : State → Handled) : onStoreCorrected s v a k = .raised f s := by simp only [onStoreCorrected, h]

theorem onPair_of_ne {low : Addr} (h : low ≠ 0#12) (k : Handled) : onPair s low k = k := by
  simp only [onPair, if_neg h]

/-! ### Handlers -/

/-- The record a handler's fault leaves. -/
def handlerRecord (i : Instr) (s : State) (f : AccessFault) : FaultRecord :=
  { code := f.code, fetchAddr := s.z, word := some (encode i), addr := some f.addr }

/-- The record of an Unimplemented verdict. -/
def unimplementedRecord (i : Instr) (name : UnimplementedName) (s : State) : FaultRecord :=
  { code := .unimplemented name, fetchAddr := s.z, word := some (encode i), addr := none }

/-- A handler leaves the state it completes in, or the state it faulted in with the record (R102, R161). -/
theorem runHandler_cases {i : Instr} {body : State → Handled}
    (hb : (body s.beginExec).Spec P Q) (h : runHandler i s body = .next t) :
    P t ∨ ∃ f u, Q f u ∧ t = u.takeFault (handlerRecord i s f) := by
  unfold runHandler at h
  split at h
  next u hu =>
    cases h
    rw [hu] at hb
    exact .inl hb
  next f u hu =>
    cases h
    rw [hu] at hb
    exact .inr ⟨f, u, hb, rfl⟩

theorem runHandler_done {i : Instr} {body : State → Handled} (h : body s.beginExec = .done t) :
    runHandler i s body = .next t := by simp only [runHandler, h]

theorem runHandler_raised {i : Instr} {body : State → Handled} {f : AccessFault}
    (h : body s.beginExec = .raised f t) :
    runHandler i s body = .next (t.takeFault (handlerRecord i s f)) := by simp only [runHandler, h, handlerRecord]

theorem gated_admitted {i : Instr} {name : UnimplementedName} {body : State → Handled}
    (h : s.cfg.admitUndescribed = true) : gated i name s body = runHandler i s body := by simp only [gated, h, if_true]

theorem gated_refused {i : Instr} {name : UnimplementedName} {body : State → Handled}
    (h : s.cfg.admitUndescribed = false) :
    gated i name s body = .next (s.takeFault (unimplementedRecord i name s)) := by
  simp [gated, h, raiseUnimplemented, unimplementedRecord]

theorem gated_cases {i : Instr} {name : UnimplementedName} {body : State → Handled}
    (hb : (body s.beginExec).Spec P Q) (h : gated i name s body = .next t) :
    (P t ∨ ∃ f u, Q f u ∧ t = u.takeFault (handlerRecord i s f)) ∨
      t = s.takeFault (unimplementedRecord i name s) := by
  unfold gated at h
  split at h
  · exact .inl (runHandler_cases hb h)
  · cases h
    exact .inr rfl

/-! ### The cycle -/

/-- What a cycle of a running machine does: it leaves a fetch fault, or runs the decoded instruction (R97, R98). -/
theorem step_cases (h : step s = .next t) :
    s.fault = none ∧
      ((∃ f, fetch s = .error f ∧ t = takeFetchFault s f) ∨
        ∃ w, fetch s = .ok w ∧ exec (decode s.ext w) (s.setBias 0#16) = .next t) := by
  unfold step at h
  split at h
  · cases h
  next hf =>
    split at h
    next f he =>
      cases h
      exact ⟨hf, .inl ⟨f, he, rfl⟩⟩
    next w hw => exact ⟨hf, .inr ⟨w, hw, h⟩⟩

theorem step_of_fetch {w : Word15} (hf : s.fault = none) (hw : fetch s = .ok w) :
    step s = exec (decode s.ext w) (s.setBias 0#16) := by simp only [step, hf, hw]

theorem step_of_fetch_error {f : AccessFault} (hf : s.fault = none) (hw : fetch s = .error f) :
    step s = .next (takeFetchFault s f) := by simp only [step, hf, hw]

end Sys2Proof.Machine
end

