-- ==== Sys2Proof/Laws/Exec.lean ====
section
/-! SUPPORT. The one inversion lemma of `exec`: what a meaning can come to, for any property of states that the updates of
a handler keep and any property its access faults have. Frames, invariants and fault rules follow from it. -/

namespace Sys2Proof.Machine

/-- A property of states that every update of a handler keeps, other than those of the flags. -/
structure Closed (P : State → Prop) : Prop where
  setA : ∀ {s}, P s → ∀ v, P (s.setA v)
  setZ : ∀ {s}, P s → ∀ v, P (s.setZ v)
  write : ∀ {s t a v}, P s → memWrite s a v = .ok t → P t

/-- What the faults of accesses made in states with `P` have in common: reads anywhere, writes below 1024, where all the
write operands lie (R59, R167), and the pair check. -/
structure FaultsIn (P : State → Prop) (Q : AccessFault → Prop) : Prop where
  read : ∀ {s a f}, P s → memRead s a = .error f → Q f
  write : ∀ {s a v f}, P s → a.toNat < 1024 → memWrite s a v = .error f → Q f
  pair : Q { code := .addressUnderflow, addr := 0#12 }

/-- No claim about the faults. -/
theorem FaultsIn.trivial (P : State → Prop) : FaultsIn P fun _ => True := ⟨fun _ _ => ⟨⟩, fun _ _ _ => ⟨⟩, ⟨⟩⟩

theorem eAddr_toNat (e : EField) : (eAddr e).toNat = e.toNat := by
  have := e.isLt
  rw [eAddr, BitVec.toNat_setWidth]
  omega

/-- An erasable operand lies below 1024 (R38). -/
theorem eAddr_lt (e : EField) : (eAddr e).toNat < 1024 := by
  rw [eAddr_toNat]
  exact e.isLt

theorem highAddr_toNat {low : Addr} (h : low ≠ 0#12) : (highAddr low).toNat = low.toNat - 1 := by
  have h0 : low.toNat ≠ 0 := fun e => h (BitVec.eq_of_toNat_eq e)
  have := low.isLt
  rw [highAddr, BitVec.toNat_sub]
  simp only [BitVec.toNat_ofNat]
  omega

theorem highAddr_lt (e : EField) (h : eAddr e ≠ 0#12) : (highAddr (eAddr e)).toNat < 1024 := by
  have := eAddr_lt e
  rw [highAddr_toNat h]
  omega

theorem lAddr_lt : lAddr.toNat < 1024 := by decide

theorem qAddr_lt : qAddr.toNat < 1024 := by decide

theorem linkAddr_lt (c : Config) : (linkAddr c).toNat < 1024 := by
  unfold linkAddr
  split
  · exact qAddr_lt
  · exact lAddr_lt

section

variable {P : State → Prop} {Q : AccessFault → Prop} {s t : State}

/-- A handler that comes to a state with `P`, and faults only with `Q`. -/
def Handled.Keeps (P : State → Prop) (Q : AccessFault → Prop) (h : Handled) : Prop := h.Spec P fun f s => P s ∧ Q f

theorem keeps_done (h : P s) : Handled.Keeps P Q (.done s) := h

theorem keeps_onRead {a : Addr} {k : Word → Handled} (hc : FaultsIn P Q) (h : P s)
    (hk : ∀ v, Handled.Keeps P Q (k v)) : Handled.Keeps P Q (onRead s a k) :=
  onRead_spec (fun v _ => hk v) fun _ hf => ⟨h, hc.read h hf⟩

theorem keeps_onRead16 {a : Addr} {k : Word → Handled} (hc : FaultsIn P Q) (h : P s)
    (hk : ∀ v, Handled.Keeps P Q (k v)) : Handled.Keeps P Q (onRead16 s a k) := by
  refine onRead16_spec (fun v _ => hk v) fun f hf => ⟨h, ?_⟩
  unfold read16 at hf
  split at hf
  next g hg =>
    cases hf
    exact hc.read h hg
  next => cases hf

theorem keeps_onWrite {a : Addr} {v : Word} {k : State → Handled} (hc : FaultsIn P Q) (hP : Closed P) (h : P s)
    (ha : a.toNat < 1024) (hk : ∀ t, P t → Handled.Keeps P Q (k t)) : Handled.Keeps P Q (onWrite s a v k) :=
  onWrite_spec (fun t ht => hk t (hP.write h ht)) fun _ hf => ⟨h, hc.write h ha hf⟩

theorem keeps_onStoreCorrected {a : Addr} {v : Word} {k : State → Handled} (hc : FaultsIn P Q) (hP : Closed P)
    (h : P s) (ha : a.toNat < 1024) (hk : ∀ t, P t → Handled.Keeps P Q (k t)) :
    Handled.Keeps P Q (onStoreCorrected s v a k) :=
  onStoreCorrected_spec (fun t ht => hk t (hP.write h ht)) fun _ hf => ⟨h, hc.write h ha hf⟩

theorem keeps_onPair {low : Addr} {k : Handled} (hc : FaultsIn P Q) (h : P s)
    (hk : low ≠ 0#12 → Handled.Keeps P Q k) : Handled.Keeps P Q (onPair s low k) :=
  onPair_spec hk fun _ => ⟨h, hc.pair⟩

/-- What a meaning comes to: it completes in a state with `P`; or an access faults with `Q` in a state with `P`, and the
record is left there; or it is Unimplemented, and the record is left in the state it started from (R97, R102, R165). -/
theorem exec_cases {i : Instr} (hP : Closed P) (hc : FaultsIn P Q) (h0 : P s.beginExec)
    (hIe : i = .relint ∨ i = .inhint → ∀ {u}, P u → ∀ v, P (u.setIe v))
    (hBias : ((∃ e, i = .index e) ∨ ∃ k, i = .indexK k) → ∀ {u}, P u → ∀ v, P (u.setBias v))
    (hExt : (i = .extend ∨ ∃ k, i = .indexK k) → ∀ {u}, P u → ∀ v, P (u.setExt v))
    (h : exec i s = .next t) :
    P t ∨ (∃ f u, P u ∧ Q f ∧ t = u.takeFault (handlerRecord i s f)) ∨
      ∃ name, t = s.takeFault (unimplementedRecord i name s) := by
  have run : ∀ {j body}, Handled.Keeps P Q (body s.beginExec) → runHandler j s body = .next t →
      P t ∨ (∃ f u, P u ∧ Q f ∧ t = u.takeFault (handlerRecord j s f)) ∨
        ∃ name, t = s.takeFault (unimplementedRecord j name s) := by
    intro j body hb h
    rcases runHandler_cases hb h with h | ⟨f, u, ⟨hu, hf⟩, rfl⟩
    · exact .inl h
    · exact .inr (.inl ⟨f, u, hu, hf, rfl⟩)
  have gat : ∀ {j name body}, Handled.Keeps P Q (body s.beginExec) → gated j name s body = .next t →
      P t ∨ (∃ f u, P u ∧ Q f ∧ t = u.takeFault (handlerRecord j s f)) ∨
        ∃ name, t = s.takeFault (unimplementedRecord j name s) := by
    intro j name body hb h
    rcases gated_cases hb h with (h | ⟨f, u, ⟨hu, hf⟩, rfl⟩) | rfl
    · exact .inl h
    · exact .inr (.inl ⟨f, u, hu, hf, rfl⟩)
    · exact .inr (.inr ⟨name, rfl⟩)
  have un : ∀ j name, raiseUnimplemented j name s = .next t →
      P t ∨ (∃ f u, P u ∧ Q f ∧ t = u.takeFault (handlerRecord j s f)) ∨
        ∃ name, t = s.takeFault (unimplementedRecord j name s) := by
    intro j name h
    cases h
    exact .inr (.inr ⟨name, rfl⟩)
  cases i <;> simp only [exec] at h
  case tc k =>
    unfold execTc at h
    refine run ?_ h
    exact keeps_onWrite hc hP h0 (linkAddr_lt _) fun t ht => keeps_done (hP.setZ ht _)
  case ret =>
    unfold execReturn at h
    refine run ?_ h
    exact keeps_onRead hc h0 fun _ => keeps_done (hP.setZ h0 _)
  case relint =>
    unfold execRelint at h
    refine run ?_ h
    exact keeps_done (hIe (by simp) h0 _)
  case inhint =>
    unfold execInhint at h
    refine run ?_ h
    exact keeps_done (hIe (by simp) h0 _)
  case extend =>
    unfold execExtend at h
    refine run ?_ h
    exact keeps_done (hExt (.inl rfl) h0 _)
  case ccs e =>
    unfold execCcs at h
    refine run ?_ h
    exact keeps_onRead16 hc h0 fun _ => keeps_done (hP.setZ (hP.setA h0 _) _)
  case tcf f =>
    unfold execTcf at h
    refine run ?_ h
    exact keeps_done (hP.setZ h0 _)
  case das e =>
    unfold execDas at h
    refine run ?_ h
    exact keeps_onPair hc h0 fun hne =>
      keeps_onRead16 hc h0 fun _ => keeps_onRead16 hc h0 fun _ => 
        keeps_onStoreCorrected hc hP h0 (eAddr_lt e) fun u hu =>
          keeps_onRead16 hc hu fun _ => keeps_onStoreCorrected hc hP hu (highAddr_lt e hne) fun v hv =>
            keeps_onWrite hc hP (hP.setA hv _) lAddr_lt fun x hx => keeps_done hx
  case lxch e =>
    unfold execLxch at h
    refine gat ?_ h
    exact keeps_onRead16 hc h0 fun _ => keeps_onRead16 hc h0 fun _ => 
      keeps_onWrite hc hP h0 (eAddr_lt e) fun u hu => keeps_onWrite hc hP hu lAddr_lt fun v hv => keeps_done hv
  case incr e =>
    unfold execIncr at h
    refine run ?_ h
    exact keeps_onRead16 hc h0 fun _ => keeps_onWrite hc hP h0 (eAddr_lt e) fun u hu => keeps_done hu
  case ads e =>
    unfold execAds at h
    refine run ?_ h
    exact keeps_onRead16 hc h0 fun _ => 
      keeps_onStoreCorrected hc hP (hP.setA h0 _) (eAddr_lt e) fun u hu => keeps_done hu
  case ca k =>
    unfold execCa at h
    refine run ?_ h
    exact keeps_onRead16 hc h0 fun _ => keeps_done (hP.setA h0 _)
  case cs k =>
    unfold execCs at h
    refine run ?_ h
    exact keeps_onRead16 hc h0 fun _ => keeps_done (hP.setA h0 _)
  case index e =>
    unfold execIndex at h
    refine run ?_ h
    exact keeps_onRead16 hc h0 fun _ => keeps_done (hBias (.inl ⟨e, rfl⟩) h0 _)
  case resume => exact un _ _ h
  case dxch e =>
    unfold execDxch at h
    refine gat ?_ h
    exact keeps_onPair hc h0 fun hne =>
      keeps_onRead16 hc h0 fun _ => keeps_onRead16 hc h0 fun _ => 
        keeps_onWrite hc hP h0 (eAddr_lt e) fun u hu => keeps_onWrite hc hP hu lAddr_lt fun v hv =>
          keeps_onRead16 hc hv fun _ => keeps_onStoreCorrected hc hP hv (highAddr_lt e hne) fun x hx =>
            keeps_done (hP.setA hx _)
  case ts e =>
    unfold execTs at h
    refine run ?_ h
    refine keeps_onStoreCorrected hc hP h0 (eAddr_lt e) fun u hu => ?_
    split
    · exact keeps_done hu
    · split
      · exact keeps_done (hP.setZ hu _)
      · exact keeps_done (hP.setA (hP.setZ hu _) _)
  case xch e =>
    unfold execXch at h
    refine gat ?_ h
    exact keeps_onRead16 hc h0 fun _ => keeps_onStoreCorrected hc hP h0 (eAddr_lt e) fun u hu => keeps_done (hP.setA hu _)
  case ad k =>
    unfold execAd at h
    refine run ?_ h
    exact keeps_onRead16 hc h0 fun _ => keeps_done (hP.setA h0 _)
  case mask k =>
    unfold execMask at h
    refine run ?_ h
    exact keeps_onRead16 hc h0 fun _ => keeps_done (hP.setA h0 _)
  case read ch => exact un _ _ h
  case write ch => exact un _ _ h
  case rand ch => exact un _ _ h
  case wand ch => exact un _ _ h
  case ror ch => exact un _ _ h
  case wor ch => exact un _ _ h
  case rxor ch => exact un _ _ h
  case edrupt ch => exact un _ _ h
  case dv e => exact un _ _ h
  case bzf f =>
    unfold execBzf at h
    refine run ?_ h
    split
    · exact keeps_done (hP.setZ h0 _)
    · exact keeps_done h0
  case msu e =>
    unfold execMsu at h
    refine run ?_ h
    exact keeps_onRead16 hc h0 fun _ => keeps_done (hP.setA h0 _)
  case qxch e =>
    unfold execQxch at h
    refine gat ?_ h
    exact keeps_onRead16 hc h0 fun _ => keeps_onRead16 hc h0 fun _ => 
      keeps_onStoreCorrected hc hP h0 (eAddr_lt e) fun u hu => keeps_onWrite hc hP hu qAddr_lt fun v hv =>
        keeps_done hv
  case aug e =>
    unfold execAug at h
    refine run ?_ h
    exact keeps_onRead16 hc h0 fun _ => keeps_onWrite hc hP h0 (eAddr_lt e) fun u hu => keeps_done hu
  case dim e =>
    unfold execDim at h
    refine run ?_ h
    exact keeps_onRead16 hc h0 fun _ => keeps_onWrite hc hP h0 (eAddr_lt e) fun u hu => keeps_done hu
  case dca k =>
    unfold execDca at h
    refine run ?_ h
    exact keeps_onPair hc h0 fun _ => keeps_onRead16 hc h0 fun _ => keeps_onWrite hc hP h0 lAddr_lt fun u hu =>
      keeps_onRead16 hc hu fun _ => keeps_done (hP.setA hu _)
  case dcs k =>
    unfold execDcs at h
    refine run ?_ h
    exact keeps_onPair hc h0 fun _ => keeps_onRead16 hc h0 fun _ => keeps_onWrite hc hP h0 lAddr_lt fun u hu =>
      keeps_onRead16 hc hu fun _ => keeps_done (hP.setA hu _)
  case indexK k =>
    unfold execIndexK at h
    refine run ?_ h
    exact keeps_onRead16 hc h0 fun _ => keeps_done
      (hExt (.inr ⟨k, rfl⟩) (hBias (.inr ⟨k, rfl⟩) h0 _) _)
  case su e =>
    unfold execSu at h
    refine gat ?_ h
    exact keeps_onRead16 hc h0 fun _ => keeps_done (hP.setA h0 _)
  case bzmf f =>
    unfold execBzmf at h
    refine run ?_ h
    split
    · exact keeps_done (hP.setZ h0 _)
    · exact keeps_done h0
  case mp k =>
    unfold execMp at h
    refine run ?_ h
    exact keeps_onRead16 hc h0 fun _ => keeps_onWrite hc hP h0 lAddr_lt fun u hu => keeps_done (hP.setA hu _)

/-- A property that every update keeps, and a record in FAULT too, is kept by every meaning. -/
theorem exec_keeps {i : Instr} (hP : Closed P) (hf : ∀ {u}, P u → ∀ r, P (u.takeFault r))
    (hIe : i = .relint ∨ i = .inhint → ∀ {u}, P u → ∀ v, P (u.setIe v)) (hBias : ∀ {u}, P u → ∀ v, P (u.setBias v))
    (hExt : ∀ {u}, P u → ∀ v, P (u.setExt v)) (hs : P s) (h : exec i s = .next t) : P t := by
  have h0 : P s.beginExec := hExt (hBias (hP.setZ hs _) _) _
  rcases exec_cases hP (FaultsIn.trivial P) h0 hIe (fun _ => hBias) (fun _ => hExt) h with
    h | ⟨f, u, hu, _, rfl⟩ | ⟨name, rfl⟩
  · exact h
  · exact hf hu _
  · exact hf hs _

/-- The same for a cycle. -/
theorem step_keeps (hP : Closed P) (hf : ∀ {u}, P u → ∀ r, P (u.takeFault r)) (hIe : ∀ {u}, P u → ∀ v, P (u.setIe v))
    (hBias : ∀ {u}, P u → ∀ v, P (u.setBias v)) (hExt : ∀ {u}, P u → ∀ v, P (u.setExt v)) (hs : P s)
    (h : step s = .next t) : P t := by
  obtain ⟨_, ⟨f, _, rfl⟩ | ⟨w, _, h⟩⟩ := step_cases h
  · exact hf hs _
  · exact exec_keeps hP hf (fun _ => hIe) hBias hExt (hBias hs _) h

end

end Sys2Proof.Machine
end

