-- ==== Sys2Proof/Laws/PerInstr.lean ====
section
/-! SUPPORT. The opcode table row of each instruction: the match and mask of R53 and R54 against the encoder's word. -/

namespace Sys2Proof.Laws

theorem wordK_row (op : BitVec 3) (k : Addr) : wordK op k &&& 0x7000#15 = wordK op 0#12 := by
  have h : (0x7000#15 : Word15) = wordK 7#3 0#12 := rfl
  rw [h]
  unfold wordK
  rw [BitVec.and_append, BitVec.and_zero]
  congr 1
  revert op
  decide

theorem wordE_row (op : BitVec 3) (qc : BitVec 2) (e : EField) :
    wordE op qc e &&& 0x7C00#15 = wordE op qc 0#10 := by
  have h : (0x7C00#15 : Word15) = wordE 7#3 3#2 0#10 := rfl
  rw [h]
  unfold wordE
  rw [BitVec.and_append, BitVec.and_append, BitVec.and_zero]
  congr 1
  · revert op
    decide
  · congr 1
    revert qc
    decide

theorem wordIo_row (iop : BitVec 3) (ch : Channel) : wordIo iop ch &&& 0x7E00#15 = wordIo iop 0#9 := by
  have h : (0x7E00#15 : Word15) = 7#3 ++ (7#3 ++ 0#9 : Addr) := rfl
  rw [h]
  unfold wordIo
  rw [BitVec.and_append, BitVec.and_append, BitVec.and_zero]
  congr 1
  congr 1
  revert iop
  decide

namespace TableRow

/-- Mask and match of an instruction's row in the opcode table (R53, R54). -/
def row : Instr → Word15 × Word15
  | .tc _ => (0x7000#15, 0x0000#15)
  | .ret => (0x7FFF#15, 0x0002#15)
  | .relint => (0x7FFF#15, 0x0003#15)
  | .inhint => (0x7FFF#15, 0x0004#15)
  | .extend => (0x7FFF#15, 0x0006#15)
  | .ccs _ => (0x7C00#15, 0x1000#15)
  | .tcf _ => (0x7000#15, 0x1000#15)
  | .das _ => (0x7C00#15, 0x2000#15)
  | .lxch _ => (0x7C00#15, 0x2400#15)
  | .incr _ => (0x7C00#15, 0x2800#15)
  | .ads _ => (0x7C00#15, 0x2C00#15)
  | .ca _ => (0x7000#15, 0x3000#15)
  | .cs _ => (0x7000#15, 0x4000#15)
  | .index _ => (0x7C00#15, 0x5000#15)
  | .resume => (0x7FFF#15, 0x500F#15)
  | .dxch _ => (0x7C00#15, 0x5400#15)
  | .ts _ => (0x7C00#15, 0x5800#15)
  | .xch _ => (0x7C00#15, 0x5C00#15)
  | .ad _ => (0x7000#15, 0x6000#15)
  | .mask _ => (0x7000#15, 0x7000#15)
  | .read _ => (0x7E00#15, 0x0000#15)
  | .write _ => (0x7E00#15, 0x0200#15)
  | .rand _ => (0x7E00#15, 0x0400#15)
  | .wand _ => (0x7E00#15, 0x0600#15)
  | .ror _ => (0x7E00#15, 0x0800#15)
  | .wor _ => (0x7E00#15, 0x0A00#15)
  | .rxor _ => (0x7E00#15, 0x0C00#15)
  | .edrupt _ => (0x7E00#15, 0x0E00#15)
  | .dv _ => (0x7C00#15, 0x1000#15)
  | .bzf _ => (0x7000#15, 0x1000#15)
  | .msu _ => (0x7C00#15, 0x2000#15)
  | .qxch _ => (0x7C00#15, 0x2400#15)
  | .aug _ => (0x7C00#15, 0x2800#15)
  | .dim _ => (0x7C00#15, 0x2C00#15)
  | .dca _ => (0x7000#15, 0x3000#15)
  | .dcs _ => (0x7000#15, 0x4000#15)
  | .indexK _ => (0x7000#15, 0x5000#15)
  | .su _ => (0x7C00#15, 0x6000#15)
  | .bzmf _ => (0x7000#15, 0x6000#15)
  | .mp _ => (0x7000#15, 0x7000#15)

/-- The word of every instruction lies in the instruction's row of the opcode table. -/
def Statement (i : Instr) : Prop := encode i &&& (row i).1 = (row i).2

theorem tc (k : Addr) : Statement (.tc k) := (wordK_row _ _).trans rfl

theorem ret : Statement (.ret) := rfl

theorem relint : Statement (.relint) := rfl

theorem inhint : Statement (.inhint) := rfl

theorem extend : Statement (.extend) := rfl

theorem ccs (e : EField) : Statement (.ccs e) := (wordE_row _ _ _).trans rfl

theorem tcf (f : Addr) : Statement (.tcf f) := (wordK_row _ _).trans rfl

theorem das (e : EField) : Statement (.das e) := (wordE_row _ _ _).trans rfl

theorem lxch (e : EField) : Statement (.lxch e) := (wordE_row _ _ _).trans rfl

theorem incr (e : EField) : Statement (.incr e) := (wordE_row _ _ _).trans rfl

theorem ads (e : EField) : Statement (.ads e) := (wordE_row _ _ _).trans rfl

theorem ca (k : Addr) : Statement (.ca k) := (wordK_row _ _).trans rfl

theorem cs (k : Addr) : Statement (.cs k) := (wordK_row _ _).trans rfl

theorem index (e : EField) : Statement (.index e) := (wordE_row _ _ _).trans rfl

theorem resume : Statement (.resume) := rfl

theorem dxch (e : EField) : Statement (.dxch e) := (wordE_row _ _ _).trans rfl

theorem ts (e : EField) : Statement (.ts e) := (wordE_row _ _ _).trans rfl

theorem xch (e : EField) : Statement (.xch e) := (wordE_row _ _ _).trans rfl

theorem ad (k : Addr) : Statement (.ad k) := (wordK_row _ _).trans rfl

theorem mask (k : Addr) : Statement (.mask k) := (wordK_row _ _).trans rfl

theorem read (ch : Channel) : Statement (.read ch) := (wordIo_row _ _).trans rfl

theorem write (ch : Channel) : Statement (.write ch) := (wordIo_row _ _).trans rfl

theorem rand (ch : Channel) : Statement (.rand ch) := (wordIo_row _ _).trans rfl

theorem wand (ch : Channel) : Statement (.wand ch) := (wordIo_row _ _).trans rfl

theorem ror (ch : Channel) : Statement (.ror ch) := (wordIo_row _ _).trans rfl

theorem wor (ch : Channel) : Statement (.wor ch) := (wordIo_row _ _).trans rfl

theorem rxor (ch : Channel) : Statement (.rxor ch) := (wordIo_row _ _).trans rfl

theorem edrupt (ch : Channel) : Statement (.edrupt ch) := (wordIo_row _ _).trans rfl

theorem dv (e : EField) : Statement (.dv e) := (wordE_row _ _ _).trans rfl

theorem bzf (f : Addr) : Statement (.bzf f) := (wordK_row _ _).trans rfl

theorem msu (e : EField) : Statement (.msu e) := (wordE_row _ _ _).trans rfl

theorem qxch (e : EField) : Statement (.qxch e) := (wordE_row _ _ _).trans rfl

theorem aug (e : EField) : Statement (.aug e) := (wordE_row _ _ _).trans rfl

theorem dim (e : EField) : Statement (.dim e) := (wordE_row _ _ _).trans rfl

theorem dca (k : Addr) : Statement (.dca k) := (wordK_row _ _).trans rfl

theorem dcs (k : Addr) : Statement (.dcs k) := (wordK_row _ _).trans rfl

theorem indexK (k : Addr) : Statement (.indexK k) := (wordK_row _ _).trans rfl

theorem su (e : EField) : Statement (.su e) := (wordE_row _ _ _).trans rfl

theorem bzmf (f : Addr) : Statement (.bzmf f) := (wordK_row _ _).trans rfl

theorem mp (k : Addr) : Statement (.mp k) := (wordK_row _ _).trans rfl
end TableRow

end Sys2Proof.Laws
end

