-- ==== Sys2Proof/Laws/Ports.lean ====
section
/-! SUPPORT. What a host write and a run can do, said once (R48, R105, R178). -/

namespace Sys2Proof.Machine

variable {s t : State} {inputs : List Addr} {ending : RunEnd} {events : List Event} {n : Nat}

/-- A host write that is not refused is a Write to a member of HOST_INPUT_SET, on a machine that is not stopped. -/
theorem hostWrite_cases {a : Addr} {v : Word} (h : hostWrite inputs s a v = some t) :
    s.fault = none ∧ a ∈ inputs ∧ region s.cfg a = .erasable ∧ memWrite s a v = .ok t := by
  unfold hostWrite at h
  split at h
  next hc =>
    obtain ⟨hf, hi, hr⟩ := hc
    refine ⟨hf, hi, hr, ?_⟩
    split at h
    next u hu =>
      cases h
      exact hu
    next => cases h
  next => cases h

theorem endsHere_iff (ending : RunEnd) (done : Nat) (s : State) : endsHere ending done s = true ↔
    s.fault = none ∧ (ending = .afterCycles done ∨ ending = .atFetch s.z) := by
  cases ending with
  | afterCycles n => simp [endsHere, eq_comm (a := n)]
  | atFetch stop => simp [endsHere, eq_comm (a := stop)]

/-- Everything a run can come to: its end is where the claim says, without a fault, and what every cycle and every host
write keeps holds there. -/
theorem runUntil_cases {P : State → Prop} (hstep : ∀ {s t}, P s → step s = .next t → P t)
    (hwrite : ∀ {s t a v}, P s → hostWrite inputs s a v = some t → P t) (hs : P s)
    (h : runUntil inputs ending n events s = some t) : P t ∧ ∃ m, endsHere ending m t = true := by
  induction events generalizing n s with
  | nil =>
    unfold runUntil at h
    split at h
    next he =>
      cases h
      exact ⟨hs, _, he⟩
    next => cases h
  | cons e rest ih =>
    cases e with
    | cycle =>
      unfold runUntil at h
      split at h
      next he =>
        cases h
        exact ⟨hs, _, he⟩
      next =>
        split at h
        next u hu => exact ih (hstep hs hu) h
        next => cases h
        next => cases h
    | hostWrite a v =>
      unfold runUntil at h
      split at h
      next u hu => exact ih (hwrite hs hu) h
      next => cases h

/-- The end of a run has no fault (R105, D20). -/
theorem runUntil_fault (h : runUntil inputs ending n events s = some t) : t.fault = none := by
  obtain ⟨_, _, he⟩ := runUntil_cases (P := fun _ => True) (fun _ _ => ⟨⟩) (fun _ _ => ⟨⟩) ⟨⟩ h
  exact ((endsHere_iff _ _ _).mp he).1

/-- The number of cycles in a list of events. -/
def cyclesIn : List Event → Nat
  | [] => 0
  | .cycle :: rest => cyclesIn rest + 1
  | .hostWrite _ _ :: rest => cyclesIn rest

/-- A run in which all the events happen is the run that ends after as many cycles as they hold. -/
theorem runEvents_eq_runUntil (inputs : List Addr) (events : List Event) (n : Nat) (s : State) :
    runEvents inputs events s = runUntil inputs (.afterCycles (n + cyclesIn events)) n events s := by
  induction events generalizing n s with
  | nil => simp [runEvents, runUntil, endsHere, cyclesIn]
  | cons e rest ih =>
    cases e with
    | cycle =>
      have hne : endsHere (.afterCycles (n + cyclesIn (.cycle :: rest))) n s = false := by
        simp [endsHere, cyclesIn]
      have hn : n + cyclesIn (.cycle :: rest) = n + 1 + cyclesIn rest := by
        rw [cyclesIn]
        omega
      rw [runEvents, runUntil, hne, if_neg (by decide)]
      cases step s with
      | next t =>
        rw [hn]
        exact ih (n + 1) t
      | fault => rfl
      | refused => rfl
    | hostWrite a v =>
      rw [runEvents, runUntil]
      cases hostWrite inputs s a v with
      | some t => exact ih n t
      | none => rfl

/-- A run to a stop address without host writes (R105). -/
theorem runTo_eq_runUntil (stop : Addr) (n m : Nat) (s : State) :
    runTo stop n s = runUntil [] (.atFetch stop) m (List.replicate n .cycle) s := by
  induction n generalizing m s with
  | zero => simp [runTo, runUntil, endsHere]
  | succ n ih =>
    rw [runTo, List.replicate_succ, runUntil]
    by_cases hc : s.fault = none ∧ s.z = stop
    · simp [hc, endsHere]
    · have he : endsHere (.atFetch stop) m s = false := by
        rw [← Bool.not_eq_true, endsHere_iff]
        simpa [eq_comm (a := stop)] using hc
      rw [if_neg hc, he, if_neg (by decide)]
      cases step s with
      | next t => exact ih (m + 1) t
      | fault => rfl
      | refused => rfl

/-- A safe run is a run of that many cycles, without host writes, that comes to its end (R105, D20). -/
theorem safeRun_iff (n m : Nat) (s : State) : SafeRun n s ↔
    ∃ t, runUntil [] (.afterCycles (m + n)) m (List.replicate n .cycle) s = some t := by
  induction n generalizing m s with
  | zero => simp [SafeRun, runUntil, endsHere]
  | succ n ih =>
    have he : endsHere (.afterCycles (m + (n + 1))) m s = false := by simp [endsHere]
    have hm : m + (n + 1) = m + 1 + n := by omega
    rw [List.replicate_succ, runUntil, he, if_neg (by decide), hm, SafeRun]
    cases step s with
    | next u =>
      constructor
      · rintro ⟨t, ht, _, hr⟩
        cases ht
        exact (ih (m + 1) u).mp hr
      · intro h
        have hr := (ih (m + 1) u).mpr h
        refine ⟨u, rfl, ?_, hr⟩
        cases n with
        | zero => exact hr
        | succ n =>
          obtain ⟨t, ht, _⟩ := hr
          cases hf : u.fault with
          | none => rfl
          | some r =>
            simp only [step, hf] at ht
            cases ht
    | fault => simp
    | refused => simp

/-- What every cycle and every host write keeps holds at the end of a run in which all the events happen. -/
theorem runEvents_cases {P : State → Prop} (hstep : ∀ {s t}, P s → step s = .next t → P t)
    (hwrite : ∀ {s t a v}, P s → hostWrite inputs s a v = some t → P t) (hs : P s)
    (h : runEvents inputs events s = some t) : P t ∧ t.fault = none := by
  rw [runEvents_eq_runUntil inputs events 0] at h
  exact ⟨(runUntil_cases hstep hwrite hs h).1, runUntil_fault h⟩

end Sys2Proof.Machine
end

