-- ==== Sys2Proof/Tests/Slice0.lean ====
section
/-! SUPPORT. The model's own tests: the well-formedness check, every constructor's word, one cycle per instruction, and a
witness for the hypotheses of each statement. Expected values come from 95_test_vectors.md and the tables of
30_encoding.md. -/

namespace Sys2Proof.Tests

open Sys2Proof.Machine Sys2Proof.Claims

/-! ### Well-formedness: each check refuses an ill-formed term -/

/-- 2, 3, 4 and 6 are the implied instructions, no targets of TC (R55). -/
theorem test_wf_tc : (Instr.tc 2#12).wf = false ∧ (Instr.tc 3#12).wf = false ∧ (Instr.tc 4#12).wf = false ∧
    (Instr.tc 6#12).wf = false ∧ (Instr.tc 5#12).wf = true := by decide

/-- A fixed target has a quarter-code other than 0 (R51, R53). -/
theorem test_wf_tcf : (Instr.tcf 1023#12).wf = false ∧ (Instr.tcf 1024#12).wf = true := by decide

theorem test_wf_bzf : (Instr.bzf 1023#12).wf = false ∧ (Instr.bzf 1024#12).wf = true := by decide

theorem test_wf_bzmf : (Instr.bzmf 1023#12).wf = false ∧ (Instr.bzmf 1024#12).wf = true := by decide

/-- The basic word of INDEX 15 is RESUME (R56). -/
theorem test_wf_index : (Instr.index 15#10).wf = false ∧ (Instr.index 14#10).wf = true := by decide

/-! ### Decoding: words written out from R51, R53 and R54, opcode | quarter-code or IOP | address -/

/-- Basic opcode 0: K format and the implied literals (R53, R55). -/
theorem test_decode_basic_0 :
    decode false 0b000_010001001100#15 = .tc 1100#12 ∧ decode false 0b000_000000000101#15 = .tc 5#12 ∧
      decode false 0b000_000000000010#15 = .ret ∧ decode false 0b000_000000000011#15 = .relint ∧
      decode false 0b000_000000000100#15 = .inhint ∧ decode false 0b000_000000000110#15 = .extend := by decide

/-- Basic opcode 1: quarter-code 0 is CCS, any other TCF (R53). -/
theorem test_decode_basic_1 :
    decode false 0b001_00_0001100100#15 = .ccs 100#10 ∧ decode false 0b001_010001001100#15 = .tcf 1100#12 := by decide

/-- Basic opcode 2 (R53). -/
theorem test_decode_basic_2 :
    decode false 0b010_00_0011001001#15 = .das 201#10 ∧ decode false 0b010_01_0001100100#15 = .lxch 100#10 ∧
      decode false 0b010_10_0001100100#15 = .incr 100#10 ∧ decode false 0b010_11_0001100100#15 = .ads 100#10 := by decide

/-- Basic opcodes 3, 4, 6 and 7, with an address in each quarter (R53). -/
theorem test_decode_basic_k :
    decode false 0b011_000001100100#15 = .ca 100#12 ∧ decode false 0b100_010000010001#15 = .cs 1041#12 ∧
      decode false 0b110_100000000000#15 = .ad 2048#12 ∧ decode false 0b111_111111111111#15 = .mask 4095#12 := by decide

/-- Basic opcode 5, and the one word of RESUME (R53, R56). -/
theorem test_decode_basic_5 :
    decode false 0b101_00_0001100100#15 = .index 100#10 ∧ decode false 0b101_00_0000001111#15 = .resume ∧
      decode false 0b101_01_0011001001#15 = .dxch 201#10 ∧ decode false 0b101_10_0001100100#15 = .ts 100#10 ∧
      decode false 0b101_11_0001100100#15 = .xch 100#10 := by decide

/-- Extended opcode 0: IOP | channel (R54). -/
theorem test_decode_io :
    decode true 0b000_000_000000110#15 = .read 6#9 ∧ decode true 0b000_001_000000111#15 = .write 7#9 ∧
      decode true 0b000_010_100000000#15 = .rand 256#9 ∧ decode true 0b000_011_111111111#15 = .wand 511#9 ∧
      decode true 0b000_100_000000001#15 = .ror 1#9 ∧ decode true 0b000_101_000000010#15 = .wor 2#9 ∧
      decode true 0b000_110_000000011#15 = .rxor 3#9 ∧ decode true 0b000_111_000000000#15 = .edrupt 0#9 := by decide

/-- Extended opcodes 1 and 6: quarter-code 0 against a fixed target (R54). -/
theorem test_decode_extended_1_6 :
    decode true 0b001_00_0001100100#15 = .dv 100#10 ∧ decode true 0b001_010001001100#15 = .bzf 1100#12 ∧
      decode true 0b110_00_0001100100#15 = .su 100#10 ∧ decode true 0b110_010001001100#15 = .bzmf 1100#12 := by decide

/-- Extended opcode 2 (R54). -/
theorem test_decode_extended_2 :
    decode true 0b010_00_0001100100#15 = .msu 100#10 ∧ decode true 0b010_01_0001100100#15 = .qxch 100#10 ∧
      decode true 0b010_10_0001100100#15 = .aug 100#10 ∧ decode true 0b010_11_0001100100#15 = .dim 100#10 := by decide

/-- Extended opcodes 3, 4, 5 and 7 (R54). -/
theorem test_decode_extended_k :
    decode true 0b011_000011001001#15 = .dca 201#12 ∧ decode true 0b100_000011001001#15 = .dcs 201#12 ∧
      decode true 0b101_010001001100#15 = .indexK 1100#12 ∧ decode true 0b111_000001100100#15 = .mp 100#12 := by decide

/-! ### The ALU (95_test_vectors.md 1.1, 2.1) -/

theorem test_add : add 0x0003#16 0xFFFD#16 = 0x0001#16 ∧ add 0xC000#16 0xFFFE#16 = 0xBFFF#16 ∧
    add 0x0001#16 0xFFFE#16 = 0xFFFF#16 ∧ add 0x4000#16 0x4000#16 = 0x8000#16 := by decide

theorem test_correct : correct 0x4000#16 = 0x0000#16 ∧ correct 0x8000#16 = 0xC000#16 ∧ correct 0xFFFA#16 = 0xFFFA#16 ∧
    ovf 0xBFFF#16 = .negative ∧ indicator .negative = 0xFFFE#16 := by decide

theorem test_signed : toSigned 0x4001#16 = -16382 ∧ toSigned 0x7FFF#16 = 0 ∧ fromSigned16 (-5) = some 0xFFFA#16 := by
  decide

/-! ### The memory map (95_test_vectors.md 2.2) -/

/-- The contents of one address after a write to another. -/
def writeThenRead (s : State) (a : Addr) (v : Word) (b : Addr) : Option Word :=
  match memWrite s a v with
  | .error _ => none
  | .ok t =>
    match memRead t b with
    | .error _ => none
    | .ok w => some w

theorem test_narrow_write : writeThenRead State.reset 100#12 0x4000#16 100#12 = some 0xC000#16 ∧
    writeThenRead State.reset 1#12 0x4001#16 1#12 = some 0xC001#16 ∧
    writeThenRead State.reset 2#12 0x4001#16 2#12 = some 0x4001#16 := by decide

theorem test_bank_views : writeThenRead State.reset 4#12 0x2C00#16 6#12 = some 0x2C00#16 ∧
    writeThenRead State.reset 3#12 0x0300#16 6#12 = some 0x0003#16 ∧
    writeThenRead State.reset 3#12 0x0300#16 3#12 = some 0x0300#16 ∧
    writeThenRead State.reset 5#12 0xF44C#16 5#12 = some 0x044C#16 := by decide

theorem test_bounds : memRead State.reset 48#12 = .error { code := .reservedAddress, addr := 48#12 } ∧
    memRead State.reset 49#12 = .ok 0#16 ∧ memRead State.reset 2047#12 = .ok 0#16 ∧
    memRead State.reset 2048#12 = .error { code := .unimplementedBank, addr := 2048#12 } ∧
    memWrite State.reset 1024#12 1#16 = .error { code := .writeToFixed, addr := 1024#12 } := by
  refine ⟨rfl, rfl, rfl, rfl, rfl⟩

/-! ### One cycle (95_test_vectors.md 2.3 to 2.7) -/

/-- The vectors' start state: the reset state with the given cells, the word at 1024, and EXT. -/
def start (ext : Bool) (w : Nat) (cells : Memory) : State :=
  { (State.withFetchWord { State.reset with mem := cells } 16 w) with ext := ext }

/-- The same with ADMIT_UNDESCRIBED true. -/
def admitted (ext : Bool) (w : Nat) (cells : Memory) : State :=
  { start ext w cells with cfg := { Config.decided with admitUndescribed := true } }

/-- The state one cycle later. -/
def after (s : State) : State :=
  match step s with
  | .next t => t
  | .fault _ => s
  | .refused _ => s

/-- The record of a fault that a word at 1024 raises. -/
def record (code : FaultCode) (w : Word15) (addr : Option Addr) : Option FaultRecord :=
  some { code := code, fetchAddr := 1024#12, word := some w, addr := addr }

theorem test_tc :
    (fun t : State => (t.q, t.z)) (after (start false 0o02114 [])) = (0x0401#16, 1100#12) := by decide

theorem test_return :
    (fun t : State => (t.q, t.z)) (after { (start false 0o00002 []) with q := 0x5402#16 }) = (0x5402#16, 1026#12) := by decide

theorem test_relint :
    (fun t : State => (t.ie, t.z)) (after (start false 0o00003 [])) = (true, 1025#12) := by decide

theorem test_inhint :
    (fun t : State => (t.ie, t.z)) (after { (start false 0o00004 []) with ie := true }) = (false, 1025#12) := by decide

theorem test_extend :
    (fun t : State => (t.ext, t.z)) (after (start false 0o00006 [])) = (true, 1025#12) := by decide

theorem test_ccs_minus :
    (fun t : State => (t.a, t.z)) (after (start false 0o10144 [(100, 0xFFFA#16)])) = (0x0004#16, 1027#12) := by decide

theorem test_ccs_overflow :
    (fun t : State => (t.a, t.z)) (after { (start false 0o10000 []) with a := 0x8000#16 }) = (0x7FFE#16, 1027#12) := by decide

theorem test_tcf :
    (fun t : State => (t.q, t.z)) (after (start false 0o12114 [])) = (0x0000#16, 1100#12) := by decide

theorem test_das_carry :
    (fun t : State => (t.mem.get 201, t.mem.get 200, t.a, t.l)) (after { (start false 0o20311 [(200, 0x0005#16), (201, 0xFFFE#16)]) with l := 0xC000#16 }) = (0xFFFF#16, 0x0004#16, 0x0000#16, 0x0000#16) := by decide

theorem test_das_overflow :
    (fun t : State => (t.mem.get 200, t.a, t.l)) (after { (start false 0o20311 [(200, 0x0001#16)]) with a := 0x3FFF#16 }) = (0x0000#16, 0x0001#16, 0x0000#16) := by decide

theorem test_lxch :
    (fun t : State => (t.mem.get 100, t.l)) (after { (admitted false 0o22144 [(100, 0x0009#16)]) with l := 0x0003#16 }) = (0x0003#16, 0x0009#16) := by decide

theorem test_lxch_zero :
    (fun t : State => (t.l, t.fault)) (after { (admitted false 0o22007 []) with l := 0x0003#16 }) = (0x0003#16, record .writeToZero 0o22007#15 (some 7#12)) := by decide

theorem test_incr :
    (fun t : State => (t.mem.get 100, t.z)) (after (start false 0o24144 [(100, 0x3FFF#16)])) = (0xC000#16, 1025#12) := by decide

theorem test_incr_z :
    (fun t : State => t.z) (after (start false 0o24005 [])) = 1026#12 := by decide

theorem test_ads :
    (fun t : State => (t.a, t.mem.get 100)) (after { (start false 0o26144 [(100, 0x0001#16)]) with a := 0x3FFF#16 }) = (0x4000#16, 0x0000#16) := by decide

theorem test_ads_zero :
    (fun t : State => (t.a, t.z, t.fault)) (after { (start false 0o26007 []) with a := 0x0005#16 }) = (0x0005#16, 1025#12, record .writeToZero 0o26007#15 (some 7#12)) := by decide

theorem test_ca_q :
    (fun t : State => t.a) (after { (start false 0o30002 []) with q := 0x4001#16 }) = 0x4001#16 := by decide

theorem test_ca_reserved :
    (fun t : State => (t.z, t.fault)) (after (start false 0o30060 [])) = (1025#12, record .reservedAddress 0o30060#15 (some 48#12)) := by decide

theorem test_cs :
    (fun t : State => t.a) (after { (start false 0o40000 []) with a := 0x4001#16 }) = 0xBFFE#16 := by decide

theorem test_index :
    (fun t : State => (t.bias, t.ext, t.z)) (after (start false 0o50144 [(100, 0xFFFE#16)])) = (0xFFFE#16, false, 1025#12) := by decide

theorem test_resume :
    (fun t : State => (t.z, t.fault)) (after (start false 0o50017 [])) = (1024#12, record (.unimplemented .resume) 0o50017#15 none) := by decide

theorem test_dxch :
    (fun t : State => (t.mem.get 201, t.l, t.mem.get 200, t.a)) (after { (admitted false 0o52311 [(200, 0x0003#16), (201, 0x0004#16)]) with a := 0x0001#16, l := 0x0002#16 }) = (0x0002#16, 0x0004#16, 0x0001#16, 0x0003#16) := by decide

theorem test_dxch_gated :
    (fun t : State => (t.z, t.fault)) (after { (start false 0o52311 []) with a := 0x0001#16 }) = (1024#12, record (.unimplemented .dxch) 0o52311#15 none) := by decide

theorem test_ts :
    (fun t : State => (t.mem.get 100, t.a, t.z)) (after { (start false 0o54144 []) with a := 0xBFFE#16 }) = (0xFFFE#16, 0xFFFE#16, 1026#12) := by decide

theorem test_ts_z :
    (fun t : State => (t.z, t.a)) (after { (start false 0o54005 []) with a := 0x4400#16 }) = (1025#12, 0x0001#16) := by decide

theorem test_xch :
    (fun t : State => (t.mem.get 100, t.a)) (after { (admitted false 0o56144 [(100, 0x0009#16)]) with a := 0x4001#16 }) = (0x0001#16, 0x0009#16) := by decide

theorem test_ad :
    (fun t : State => (t.a, t.z)) (after { (start false 0o60144 [(100, 0xFFFD#16)]) with a := 0x0003#16 }) = (0x0001#16, 1025#12) := by decide

theorem test_mask :
    (fun t : State => t.a) (after { (start false 0o70144 [(100, 0x0F0F#16)]) with a := 0x40FF#16 }) = 0x000F#16 := by decide

theorem test_mask_q :
    (fun t : State => t.a) (after { (start false 0o70002 []) with a := 0xC0FF#16, q := 0x8F0F#16 }) = 0x800F#16 := by decide

theorem test_read :
    (fun t : State => (t.z, t.ext, t.fault)) (after (start true 0o00000 [])) = (1024#12, true, record (.unimplemented (.io 0#3 0#9)) 0o00000#15 none) := by decide

theorem test_write :
    (fun t : State => (t.z, t.ext, t.fault)) (after (start true 0o01000 [])) = (1024#12, true, record (.unimplemented (.io 1#3 0#9)) 0o01000#15 none) := by decide

theorem test_rand :
    (fun t : State => (t.z, t.ext, t.fault)) (after (start true 0o02000 [])) = (1024#12, true, record (.unimplemented (.io 2#3 0#9)) 0o02000#15 none) := by decide

theorem test_wand :
    (fun t : State => (t.z, t.ext, t.fault)) (after (start true 0o03000 [])) = (1024#12, true, record (.unimplemented (.io 3#3 0#9)) 0o03000#15 none) := by decide

theorem test_ror :
    (fun t : State => (t.z, t.ext, t.fault)) (after (start true 0o04000 [])) = (1024#12, true, record (.unimplemented (.io 4#3 0#9)) 0o04000#15 none) := by decide

theorem test_wor :
    (fun t : State => (t.z, t.ext, t.fault)) (after (start true 0o05000 [])) = (1024#12, true, record (.unimplemented (.io 5#3 0#9)) 0o05000#15 none) := by decide

theorem test_rxor :
    (fun t : State => (t.z, t.ext, t.fault)) (after (start true 0o06000 [])) = (1024#12, true, record (.unimplemented (.io 6#3 0#9)) 0o06000#15 none) := by decide

theorem test_edrupt :
    (fun t : State => (t.z, t.ext, t.fault)) (after (start true 0o07000 [])) = (1024#12, true, record (.unimplemented (.io 7#3 0#9)) 0o07000#15 none) := by decide

theorem test_dv :
    (fun t : State => (t.z, t.ext, t.fault)) (after (start true 0o10144 [])) = (1024#12, true, record (.unimplemented .dv) 0o10144#15 none) := by decide

theorem test_bzf :
    (fun t : State => (t.z, t.ext)) (after { (start true 0o12114 []) with a := 0xFFFF#16 }) = (1100#12, false) := by decide

theorem test_bzf_overflow :
    (fun t : State => t.z) (after { (start true 0o12114 []) with a := 0x4000#16 }) = 1025#12 := by decide

theorem test_msu :
    (fun t : State => t.a) (after { (start true 0o20144 [(100, 0x0003#16)]) with a := 0x0005#16 }) = 0xFFFD#16 := by decide

theorem test_msu_edge :
    (fun t : State => t.a) (after (start true 0o20144 [(100, 0xC000#16)])) = 0x3FFF#16 := by decide

theorem test_qxch :
    (fun t : State => (t.mem.get 100, t.q)) (after { (admitted true 0o22144 [(100, 0x0009#16)]) with q := 0x4001#16 }) = (0x0001#16, 0x0009#16) := by decide

theorem test_aug :
    (fun t : State => t.mem.get 100) (after (start true 0o24144 [(100, 0xFFFA#16)])) = 0xFFF9#16 := by decide

theorem test_dim :
    (fun t : State => t.mem.get 100) (after (start true 0o26144 [(100, 0x0001#16)])) = 0xFFFF#16 := by decide

theorem test_dim_q :
    (fun t : State => t.q) (after { (start true 0o26002 []) with q := 0x4000#16 }) = 0x3FFF#16 := by decide

theorem test_dca_q :
    (fun t : State => (t.l, t.a)) (after { (start true 0o30002 []) with l := 0x0004#16, q := 0x4005#16 }) = (0xC005#16, 0xC005#16) := by decide

theorem test_dca_half :
    (fun t : State => (t.l, t.fault)) (after (start true 0o30061 [(49, 0x0001#16)])) = (0x0001#16, record .reservedAddress 0o30061#15 (some 48#12)) := by decide

theorem test_dcs :
    (fun t : State => (t.l, t.a)) (after (start true 0o40311 [(200, 0x0002#16), (201, 0x0007#16)])) = (0xFFF8#16, 0xFFFD#16) := by decide

theorem test_indexK :
    (fun t : State => (t.bias, t.ext, t.z)) (after (start true 0o52114 [(1100, 0x0002#16)])) = (0x0002#16, true, 1025#12) := by decide

theorem test_su :
    (fun t : State => t.a) (after { (admitted true 0o60144 [(100, 0x0003#16)]) with a := 0x0005#16 }) = 0x0002#16 := by decide

theorem test_bzmf :
    (fun t : State => t.z) (after { (start true 0o62114 []) with a := 0x8000#16 }) = 1100#12 := by decide

theorem test_bzmf_overflow :
    (fun t : State => t.z) (after { (start true 0o62114 []) with a := 0x4000#16 }) = 1025#12 := by decide

theorem test_mp :
    (fun t : State => (t.l, t.a)) (after { (start true 0o70144 [(100, 0xFFFD#16)]) with a := 0x0003#16 }) = (0xFFF9#16, 0x7FFF#16) := by decide

theorem test_mp_zero :
    (fun t : State => (t.a, t.l)) (after (start true 0o70144 [(100, 0xFFFA#16)])) = (0x7FFF#16, 0xFFFF#16) := by decide

/-- A bias of -1 (R99). -/
theorem test_bias :
    (fun t : State => (t.a, t.bias)) (after { (start false 0o32022 [(1041, 0x1111#16), (1042, 0x2222#16)]) with bias := 0xFFFE#16 }) = (0x1111#16, 0x0000#16) := by decide

/-- A biased word is decoded as any other: TC A becomes RETURN (R154). -/
theorem test_bias_implied :
    (fun t : State => (t.z, t.q)) (after { (start false 0o00000 []) with bias := 0x0002#16 }) = (0#12, 0x0000#16) := by decide

/-- A fault at the fetch has no word (R161). -/
theorem test_fetch_reserved :
    (fun t : State => (t.z, t.fault)) (after { State.reset with z := 8#12 }) = (8#12, some { code := .reservedAddress, fetchAddr := 8#12, word := none, addr := some 8#12 }) := by decide

/-- The numbers of the fault codes (R163 to R169, D41). -/
theorem test_faultNumber : [FaultCode.reservedAddress, .undefinedEncoding, .unimplemented .dv, .writeToZero, .writeToFixed,
    .unimplementedBank, .addressUnderflow].map faultNumber = [1, 2, 3, 4, 5, 6, 7] := by decide

/-- MP A: the corrected A squared, where A has no overflow pending (R119): 100 * 100 = 10000. -/
theorem test_mp_a :
    (fun t : State => (t.a, t.l)) (after { (start true 0o70000 []) with a := 100#16 }) = (0#16, 10000#16) := by decide

/-- The image of program P1: INCR 120, CA 120 (95_test_vectors.md part 3). -/
def imageP1 : List Word := [0x2878#16, 0x3078#16]

/-- A and Z at the end of a run of P1, the front end allowed to write 120. -/
def runP1 (ending : RunEnd) (events : List Event) : Option (Word × Addr) :=
  (runFromReset Config.decided imageP1 1024#12 [120#12] ending events).map fun s => (s.a, s.z)

theorem test_run_counts_cycles : runP1 (.afterCycles 2) [.cycle, .cycle] = some (1#16, 1026#12) := by decide

/-- With a host write of 5 between the cycles CA loads 5; the run ends before the third cycle, which would fetch at
1026. -/
theorem test_run_with_host_write :
    runP1 (.atFetch 1026#12) [.cycle, .hostWrite 120#12 5#16, .cycle, .cycle] = some (5#16, 1026#12) := by decide

/-- A faulted state is never final (D20): DV as the first word, after an EXTEND. -/
theorem test_run_no_faulted_end : runFromReset Config.decided [0x0006#16, 0x1064#16] 1024#12 [] (.afterCycles 2)
    [.cycle, .cycle] = none ∧ runEvents [] [.cycle] (start true 0o10144 []) = none := by decide

/-- The host's placing: after reset, the next cycle runs the placed word. -/
theorem test_withFetchWord : step (State.reset.withFetchWord 16 0o40007) =
    .next { State.reset with a := 0xFFFF#16, z := 1025#12, mem := [(1024, 0xC007#16)] } := rfl

/-! ### Witnesses: a state and operands that meet the hypotheses of each statement, at the ends of each clause -/

/-- A legal configuration that takes the other choice of R7 wherever there is one. -/
def others : Config :=
  { erasableFirst := 48, fixedBase := 2048, fixedSize := 1024, wideRegs := .accL, linkReg := .l,
    narrowWriteMode := .correct, indexAdd := .binary16, admitUndescribed := true, dcsLowComplement := false,
    mpHighSext := true, msuFn := .other }

theorem witness_others : others.legal = true := by decide

/-- Both ends of every region of the address space. -/
theorem witness_regions :
    Readable Config.decided 0#12 ∧ Readable Config.decided 7#12 ∧ Writable Config.decided 6#12 ∧
      ¬Writable Config.decided 7#12 ∧ ReservedAt Config.decided 8#12 ∧ ReservedAt Config.decided 48#12 ∧
      ErasableAt Config.decided 49#12 ∧ ErasableAt Config.decided 1023#12 ∧ BankAt Config.decided 1024#12 ∧
      BankAt Config.decided 2047#12 ∧ NoBankAt Config.decided 2048#12 ∧ NoBankAt Config.decided 4095#12 ∧
      ErasableAt others 48#12 ∧ NoBankAt others 2047#12 ∧ BankAt others 2048#12 ∧ BankAt others 3071#12 ∧
      NoBankAt others 3072#12 := by decide

/-- A running state: the decided configuration, one cell, AD 100 at Z. -/
def running : State := start false 0o60144 [(100, 0xFFFD#16)]

/-- The same state under the other choices. -/
def alternative : State := { running with cfg := others, mem := [(100, 0xFFFD#16)] }

theorem witness_inv : Inv running where
  config := by decide
  canonicalMemory := by decide
  cells := by decide
  narrowForm := by decide
  bankCell := by decide
  narrowL := fun _ => by decide
  narrowQ := fun _ => by decide

theorem witness_inv_alternative : Inv alternative where
  config := by decide
  canonicalMemory := by decide
  cells := by decide
  narrowForm := by decide
  bankCell := by decide
  narrowL := fun _ => by decide
  narrowQ := fun _ => by decide

theorem witness_DecodeOfEncode : (Instr.tc 4095#12).wf = true ∧ (Instr.tc 0#12).wf = true ∧
    (Instr.index 1023#10).wf = true ∧ (Instr.bzf 1024#12).wf = true ∧ (Instr.edrupt 511#9).wf = true := by decide

theorem witness_ImpliedLiterals : ((5#12 : Addr) ≠ 2#12 ∧ (5#12 : Addr) ≠ 3#12 ∧ (5#12 : Addr) ≠ 4#12 ∧
    (5#12 : Addr) ≠ 6#12) ∧ 2 ≤ (2#9 : Channel).toNat ∧ (6#9 : Channel).toNat ≤ 6 ∧ running.cfg.legal = true := by decide

theorem witness_AddIsSignedSum : canonical 0xC000#16 = true ∧ val16 0x7FFF#16 + val16 0xFFFF#16 = 32767 ∧
    val16 0xC000#16 + val16 0xBFFF#16 = -32767 := by decide

theorem witness_OverflowVerdictsAndCorrection : ovf 0x3FFF#16 = .none ∧ ovf 0xC000#16 = .none ∧
    ovf 0x4000#16 = .positive ∧ ovf 0x7FFF#16 = .positive ∧ ovf 0x8000#16 = .negative ∧ ovf 0xBFFF#16 = .negative := by
  decide

theorem witness_SignedConversions : (0xC000#16 : Word).setWidth 15 ≠ 0x7FFF#15 ∧
    (0xFFFF#16 : Word).setWidth 15 = 0x7FFF#15 ∧ (0x7FFF#16 : Word).setWidth 15 = 0x7FFF#15 ∧
    (-16383 : Int) ≠ 0 ∧ (-16383 : Int) ≤ 16383 := by decide

theorem witness_NarrowForms : Config.decided.narrowWriteMode = .strip ∧ others.narrowWriteMode = .correct ∧
    canonical 0x3FFF#16 = true ∧ narrow Config.decided 0x4000#16 ≠ narrow others 0x4000#16 := by decide

theorem witness_BiasAdders : Config.decided.indexAdd = .modifiedAdd ∧ others.indexAdd = .binary16 ∧
    (0x3412#16 : Word).toNat + (0xCBEE#16 : Word).toNat = 0x10000 ∧
    (0x3412#16 : Word).toNat + (0xCBED#16 : Word).toNat < 0x10000 := by decide

theorem witness_ReadMap : running.cfg.legal = true ∧ alternative.cfg.legal = true ∧ ReservedAt running.cfg 8#12 ∧
    ErasableAt running.cfg 49#12 ∧ BankAt running.cfg 2047#12 ∧ NoBankAt running.cfg 4095#12 := by decide

theorem witness_AccumulatorFormRead : Inv running ∧ Inv alternative ∧ memRead running 0#12 = .ok 0#16 ∧
    alternative.cfg.wideRegs = .accL ∧ memRead alternative 1#12 = .ok 0#16 ∧ running.cfg.wideRegs = .accQ ∧
    memRead running 2#12 = .ok 0#16 ∧ memRead running 6#12 = .ok 0#16 ∧ memRead running 7#12 = .ok 0#16 ∧
    memRead running 100#12 = .ok 0xFFFD#16 ∧ memRead running 1024#12 = .ok 0xE064#16 ∧
    memRead running 8#12 = .error { code := .reservedAddress, addr := 8#12 } :=
  ⟨witness_inv, witness_inv_alternative, rfl, rfl, rfl, rfl, rfl, rfl, rfl, rfl, rfl, rfl⟩

theorem witness_WriteMap : running.cfg.legal = true ∧ ReservedAt running.cfg 48#12 ∧ ErasableAt running.cfg 1023#12 ∧
    1024 ≤ (1024#12 : Addr).toNat := by decide

theorem witness_WriteTouchesItsCell : running.cfg.legal = true ∧ running.mem.wf = true ∧
    memWrite running 49#12 0x4001#16 = .ok (running.setMem (running.mem.set 49 0xC001#16)) ∧
    memWrite running 6#12 0xFFFF#16 = .ok (running.setBb 0x7C07#16) ∧ (1023#12 : Addr) ≠ 49#12 := by
  refine ⟨rfl, rfl, rfl, rfl, by decide⟩

theorem witness_BankViews : running.cfg.legal = true := by decide

theorem witness_CorrectedStoreReadsBack : running.cfg.legal = true ∧ running.mem.wf = true ∧
    wide running.cfg 0#12 = true ∧ wide running.cfg 2#12 = true ∧ wide running.cfg 1#12 = false ∧
    wide others 1#12 = true ∧ ErasableAt running.cfg 49#12 ∧ ErasableAt running.cfg 1023#12 := by decide

theorem witness_StepRunsTheDecodedInstruction : running.fault = none ∧ read16 running running.z = .ok 0xE064#16 ∧
    decode running.ext ((biasAdd running.cfg 0xE064#16 running.bias).setWidth 15) = .ad 100#12 :=
  ⟨rfl, rfl, by decide⟩

theorem witness_FetchReadsOrFaults : running.fault = none ∧ running.cfg.legal = true ∧
    Readable running.cfg running.z ∧ ReservedAt running.cfg 8#12 ∧ NoBankAt running.cfg 2048#12 := by decide

/-- A machine stopped by AddressUnderflow. -/
def stoppedAt : FaultRecord :=
  { code := .addressUnderflow, fetchAddr := 1024#12, word := some 0o20000#15, addr := some 0#12 }

theorem witness_StoppedMachineStays : (after (start false 0o20000 [])).fault = some stoppedAt := by decide

theorem witness_EveryCycleEnds : running.fault = none := rfl

theorem witness_FlagsAfterACycle : running.fault = none ∧ fetch running = .ok 0o60144#15 ∧
    step running = .next (after running) ∧ (after running).fault = none ∧
    (after (start false 0o50144 [(100, 3#16)])).bias = 3#16 ∧ (after (start false 0o00006 [])).ext = true :=
  ⟨rfl, rfl, rfl, rfl, by decide, by decide⟩

/-- EXTEND at Z. -/
def extending : State := start false 0o00006 []

theorem witness_ExtendActsOnTheNextWord : extending.fault = none ∧ fetch extending = .ok 0o00006#15 ∧
    decode extending.ext 0o00006#15 = .extend ∧ step extending = .next (after extending) ∧
    read16 (after extending) (after extending).z = .ok 0#16 :=
  ⟨rfl, rfl, rfl, rfl, rfl⟩

/-- INDEX 100 at Z, and AD 100 after it. -/
def indexing : State := start false 0o50144 [(100, 3#16), (1025, 0xE064#16)]

/-- INDEX 100 at Z with EXT = 1, and DCA 100 after it. -/
def indexingExtended : State := start true 0o50144 [(100, 3#16), (1025, 0x3064#16)]

/-- Either form; the next word, biased by 3, completes. -/
theorem witness_IndexBiasesOnce : (indexing.fault = none ∧ fetch indexing = .ok 0o50144#15 ∧
    step indexing = .next (after indexing) ∧ read16 (after indexing) (after indexing).z = .ok 0xE064#16 ∧
    decode indexing.ext 0o50144#15 = .index 100#10 ∧ read16 (began indexing) (eAddr 100#10) = .ok 3#16 ∧
    step (after indexing) = .next (after (after indexing)) ∧ (after (after indexing)).fault = none) ∧
    indexingExtended.fault = none ∧ fetch indexingExtended = .ok 0o50144#15 ∧
    step indexingExtended = .next (after indexingExtended) ∧
    read16 (after indexingExtended) (after indexingExtended).z = .ok 0x3064#16 ∧
    decode indexingExtended.ext 0o50144#15 = .indexK 100#12 ∧
    read16 (began indexingExtended) 100#12 = .ok 3#16 ∧
    step (after indexingExtended) = .next (after (after indexingExtended)) ∧
    (after (after indexingExtended)).fault = none :=
  ⟨⟨rfl, rfl, rfl, rfl, rfl, rfl, rfl, rfl⟩, rfl, rfl, rfl, rfl, rfl, rfl, rfl, rfl⟩

theorem witness_ConfigurationAndFixedMemoryKept : step running = .next (after running) := rfl

theorem witness_InterruptEnableFlag : running.fault = none ∧ fetch running = .ok 0o60144#15 ∧
    step running = .next (after running) ∧ fetch (start false 0o00003 []) = .ok 0o00003#15 ∧
    decode false 0o00003#15 = .relint ∧ fetch (start false 0o00004 []) = .ok 0o00004#15 ∧
    decode false 0o00004#15 = .inhint :=
  ⟨rfl, rfl, rfl, rfl, rfl, rfl, rfl⟩

/-- One faulting cycle for each code that a cycle can raise, and one fault at the fetch. -/
theorem witness_FaultRecordIsPrecise : running.cfg.legal = true ∧
    (after (start false 0o30010 [])).fault = record .reservedAddress 0o30010#15 (some 8#12) ∧
    (after (start false 0o24007 [])).fault = record .writeToZero 0o24007#15 (some 7#12) ∧
    (after (start false 0o34000 [])).fault = record .unimplementedBank 0o34000#15 (some 2048#12) ∧
    (after (start false 0o20000 [])).fault = record .addressUnderflow 0o20000#15 (some 0#12) ∧
    (after (start true 0o10144 [])).fault = record (.unimplemented .dv) 0o10144#15 none ∧
    fetch { running with z := 2048#12 } = .error { code := .unimplementedBank, addr := 2048#12 } := by
  refine ⟨rfl, by decide, by decide, by decide, by decide, by decide, rfl⟩

theorem witness_InvariantKept : Inv running ∧ step running = .next (after running) ∧
    hostWrite [49#12] running 49#12 0x4000#16 = some (running.setMem (running.mem.set 49 0xC000#16)) ∧
    runEvents [49#12] [.hostWrite 49#12 0x4000#16] running = some (running.setMem (running.mem.set 49 0xC000#16)) ∧
    runUntil [49#12] (.afterCycles 1) 0 [.cycle] running = some (after running) ∧
    runUntil [49#12] (.atFetch 1025#12) 0 [.cycle, .cycle] running = some (after running) :=
  ⟨witness_inv, rfl, rfl, rfl, rfl, rfl⟩

theorem witness_InvariantAtReset : Config.decided.legal = true ∧
    boot Config.decided [0x6064#16] 4095#12 =
      some { State.reset with z := 4095#12, mem := [(1024, 0xE064#16)] } := ⟨rfl, rfl⟩

theorem witness_BootLoadsTheImage : others.legal = true ∧ [0x6064#16, 0x0000#16].length ≤ others.fixedSize ∧
    { others with fixedSize := 1 }.legal = true ∧ { others with fixedSize := 1 }.fixedSize < [1#16, 2#16].length := by
  decide

theorem witness_HostPorts : running.cfg.legal = true ∧ running.fault = none ∧
    { running with fault := some stoppedAt }.fault ≠ none ∧
    (49#12 : Addr) ∈ ([49#12] : List Addr) ∧ ErasableAt running.cfg 49#12 ∧ ¬ErasableAt running.cfg 1024#12 ∧
    (50#12 : Addr) ∉ ([49#12] : List Addr) ∧ Readable running.cfg 2047#12 ∧ ¬Readable running.cfg 2048#12 := by decide

theorem witness_AdAdds : running.cfg.legal = true ∧ Readable running.cfg 0#12 ∧ Readable running.cfg 100#12 ∧
    ReservedAt running.cfg 48#12 ∧ NoBankAt running.cfg 4095#12 := by decide

theorem witness_SuSubtracts : alternative.cfg.legal = true ∧ alternative.cfg.admitUndescribed = true ∧
    Readable alternative.cfg (eAddr 1023#10) ∧ ReservedAt alternative.cfg (eAddr 47#10) ∧ running.cfg.legal = true ∧
    running.cfg.admitUndescribed = false := by decide

theorem witness_AdsAddsToStorage : running.cfg.legal = true ∧ Writable running.cfg (eAddr 2#10) ∧
    ErasableAt running.cfg (eAddr 49#10) ∧ ErasableAt running.cfg (eAddr 1023#10) ∧
    ReservedAt running.cfg (eAddr 8#10) := by decide

theorem witness_IncrAddsOne : running.cfg.legal = true ∧ Writable running.cfg (eAddr 5#10) ∧
    Writable running.cfg (eAddr 1023#10) ∧ ReservedAt running.cfg (eAddr 48#10) := by decide

theorem witness_AugMovesFromZero : running.cfg.legal = true ∧ Writable running.cfg (eAddr 0#10) ∧
    Writable running.cfg (eAddr 49#10) ∧ ReservedAt running.cfg (eAddr 8#10) := by decide

/-- Each of DIM's three cases is met: -3 at 100, +1 at 101, +0 at 102. -/
theorem witness_DimMovesToZero : running.cfg.legal = true ∧ Writable running.cfg (eAddr 100#10) ∧
    read16 (began running) (eAddr 100#10) = .ok 0xFFFD#16 ∧ read16 (began running) (eAddr 102#10) = .ok 0#16 ∧
    read16 (began (start true 0o26145 [(101, 1#16)])) (eAddr 101#10) = .ok 1#16 ∧
    ReservedAt running.cfg (eAddr 48#10) :=
  ⟨rfl, by decide, rfl, rfl, rfl, by decide⟩

/-- Both ranges of the difference, at their ends: 0x3FFF - 0 and 0x4000 - 0. -/
theorem witness_MsuSubtractsModularly : running.cfg.legal = true ∧ running.cfg.msuFn = .reference ∧
    alternative.cfg.legal = true ∧ alternative.cfg.msuFn = .other ∧ Readable running.cfg (eAddr 100#10) ∧
    ((0x3FFF#16 : Word).toNat % 0x8000 + 0x8000 - (correct 0#16).toNat % 0x8000) % 0x8000 = 0x3FFF ∧
    ((0xC000#16 : Word).toNat % 0x8000 + 0x8000 - (correct 0#16).toNat % 0x8000) % 0x8000 = 0x4000 ∧
    ReservedAt running.cfg (eAddr 8#10) := by decide

/-- A product other than 0, and the two zero products. -/
theorem witness_MpMultiplies : running.cfg.legal = true ∧ running.cfg.mpHighSext = false ∧
    alternative.cfg.legal = true ∧ alternative.cfg.mpHighSext = true ∧ Readable running.cfg 100#12 ∧
    toSigned (correct 0x3FFF#16) * toSigned 0xC000#16 ≠ 0 ∧
    (toSigned (correct 0#16) = 0 ∧ (correct 0#16).getLsbD 14 ≠ (0xFFFA#16 : Word).getLsbD 14) ∧
    ¬(toSigned (correct 0xFFFF#16) = 0 ∧ (correct 0xFFFF#16).getLsbD 14 ≠ (0xFFFF#16 : Word).getLsbD 14) ∧
    ReservedAt running.cfg 48#12 ∧ NoBankAt running.cfg 2048#12 := by decide

theorem witness_DasAddsDouble : running.cfg.legal = true ∧ (1#10 : EField) ≠ 0#10 ∧
    Writable running.cfg (eAddr 1#10) ∧ Writable running.cfg (eAddr 1#10 - 1#12) ∧
    Writable running.cfg (eAddr 50#10) ∧ Writable running.cfg (eAddr 50#10 - 1#12) ∧
    ErasableAt running.cfg (eAddr 49#10) ∧ ReservedAt running.cfg (eAddr 49#10 - 1#12) ∧
    ReservedAt running.cfg (eAddr 8#10) := by decide

theorem witness_MaskAnds : running.cfg.legal = true ∧ Readable running.cfg 2#12 ∧ wide running.cfg 2#12 = true ∧
    Readable running.cfg 1#12 ∧ wide running.cfg 1#12 = false ∧ ReservedAt running.cfg 8#12 ∧
    NoBankAt running.cfg 2048#12 := by decide

theorem witness_CaAndCsLoad : running.cfg.legal = true ∧ Readable running.cfg 7#12 ∧ Readable running.cfg 2047#12 ∧
    ReservedAt running.cfg 48#12 ∧ NoBankAt running.cfg 2048#12 := by decide

theorem witness_DcaLoadsDouble : running.cfg.legal = true ∧ Readable running.cfg 1#12 ∧
    Readable running.cfg (1#12 - 1#12) ∧ Readable running.cfg 49#12 ∧ ReservedAt running.cfg (49#12 - 1#12) ∧
    alternative.cfg.legal = true ∧ Readable alternative.cfg 2048#12 ∧ NoBankAt alternative.cfg (2048#12 - 1#12) ∧
    ReservedAt running.cfg 8#12 ∧ NoBankAt running.cfg 4095#12 := by decide

theorem witness_DcsLoadsComplement : running.cfg.legal = true ∧ running.cfg.dcsLowComplement = true ∧
    alternative.cfg.dcsLowComplement = false ∧ Readable running.cfg 1024#12 ∧ Readable running.cfg (1024#12 - 1#12) ∧
    ReservedAt running.cfg (49#12 - 1#12) ∧ Readable alternative.cfg 2048#12 ∧
    NoBankAt alternative.cfg (2048#12 - 1#12) := by decide

theorem witness_TsStoresAndSkips : running.cfg.legal = true ∧ Writable running.cfg (eAddr 6#10) ∧
    Writable running.cfg (eAddr 1023#10) ∧ ovf running.a = .none ∧ ovf { running with a := 0x4000#16 }.a ≠ .none ∧
    ReservedAt running.cfg (eAddr 48#10) := by decide

theorem witness_ExchangesSwap : alternative.cfg.legal = true ∧ alternative.cfg.admitUndescribed = true ∧
    Writable alternative.cfg (eAddr 2#10) ∧ Writable alternative.cfg (eAddr 48#10) ∧
    ReservedAt alternative.cfg (eAddr 47#10) := by decide

theorem witness_DxchSwapsDouble : alternative.cfg.legal = true ∧ alternative.cfg.admitUndescribed = true ∧
    Writable alternative.cfg (eAddr 1#10) ∧ Writable alternative.cfg (eAddr 1#10 - 1#12) ∧
    ErasableAt alternative.cfg (eAddr 48#10) ∧ ReservedAt alternative.cfg (eAddr 48#10 - 1#12) ∧
    ReservedAt alternative.cfg (eAddr 8#10) := by decide

theorem witness_TcCalls : running.cfg.linkReg = .q ∧ alternative.cfg.linkReg = .l ∧ (5#12 : Addr) ≠ 2#12 ∧
    (5#12 : Addr) ≠ 3#12 ∧ (5#12 : Addr) ≠ 4#12 ∧ (5#12 : Addr) ≠ 6#12 := by decide

theorem witness_ReturnGoesBack : running.cfg.linkReg = .q ∧ alternative.cfg.linkReg = .l := by decide

theorem witness_WritingZTransfers : ovf running.a = .none ∧ ovf { running with a := 0x4400#16 }.a ≠ .none := by decide

/-- The four operands of CCS: +0, -0, -1 and +1. -/
theorem witness_CcsCountsAndSkips : running.cfg.legal = true ∧ Readable running.cfg (eAddr 100#10) ∧
    val16 0xFFFE#16 < 0 ∧ 0 < val16 0x0001#16 ∧ val16 0x8000#16 < 0 ∧ 0 < val16 0x7FFF#16 ∧
    read16 (began running) (eAddr 101#10) = .ok 0x0000#16 ∧
    read16 (began { running with a := 0xFFFF#16 }) (eAddr 0#10) = .ok 0xFFFF#16 ∧
    ReservedAt running.cfg (eAddr 8#10) :=
  ⟨rfl, by decide, by decide, by decide, by decide, by decide, rfl, rfl, by decide⟩

theorem witness_BranchesToFixed : 1024 ≤ (1024#12 : Addr).toNat ∧ running.a = 0x0000#16 ∧
    { running with a := 0x4000#16 }.a ≠ 0x0000#16 ∧ { running with a := 0x4000#16 }.a ≠ 0xFFFF#16 ∧
    { running with a := 0x7FFF#16 }.a.getLsbD 15 = false ∧ { running with a := 0x8000#16 }.a.getLsbD 15 = true := by decide

theorem witness_IndexSetsTheBias : running.cfg.legal = true ∧ (16#10 : EField) ≠ 15#10 ∧
    Readable running.cfg (eAddr 1023#10) ∧ Readable running.cfg 2047#12 ∧ ReservedAt running.cfg (eAddr 14#10) ∧
    ReservedAt running.cfg 15#12 ∧ NoBankAt running.cfg 2048#12 := by decide

theorem witness_UnimplementedInstructions : running.cfg.admitUndescribed = false := by decide

theorem witness_FrameWithoutStores :
    exec (.ad 100#12) running = .next { began running with a := 0xFFFD#16 } ∧
      exec (.bzf 1100#12) running = .next { began running with z := 1100#12 } := ⟨rfl, rfl⟩

theorem witness_FrameOfControl : exec (.tc 7#12) running = .next { began running with q := 0x0401#16, z := 7#12 } ∧
    exec (.tc 7#12) alternative = .next { began alternative with l := 0x0401#16, z := 7#12 } ∧
    exec .ret running = .next { began running with z := 0#12 } := ⟨rfl, rfl, rfl⟩

theorem witness_FrameOfStores :
    exec (.incr 100#10) running = .next { began running with mem := [(100, 0xFFFE#16), (1024, 0xE064#16)] } ∧
      eAddr 100#10 ≠ 1#12 ∧ eAddr 100#10 ≠ 2#12 ∧ eAddr 100#10 ≠ 0#12 := ⟨rfl, by decide, by decide, by decide⟩

theorem witness_FrameOfPairs :
    exec (.dca 100#12) running = .next { began running with l := 0xFFFD#16 } ∧
      exec (.das 100#10) running = .next (began running) ∧
      exec (.lxch 100#10) alternative = .next { began alternative with mem := [], l := 0xFFFD#16 } ∧
      eAddr 100#10 ≠ 2#12 ∧ eAddr 100#10 - 1#12 ≠ 2#12 := by
  refine ⟨rfl, rfl, rfl, by decide, by decide⟩

end Sys2Proof.Tests
end

section
/-! PROOFS. The scope statements: the invariant of the machine, what no cycle changes, and what the CORE does not
implement. -/

namespace Sys2Proof.Machine

open Sys2Proof.Claims

variable {s t : State} {a : Addr} {v : Word}

/-! ### The forms the bank cell takes -/

/-- A write to EB leaves only the bits of EB and FB in the bank cell (R17). -/
theorem writeEb_and_mask (bb v : Word) : writeEb bb v &&& 0x7C07#16 = writeEb bb v := by
  simp [writeEb, BitVec.and_or_distrib_right, BitVec.and_assoc]

/-- A write to FB leaves only the bits of EB and FB in the bank cell (R17). -/
theorem writeFb_and_mask (bb v : Word) : writeFb bb v &&& 0x7C07#16 = writeFb bb v := by
  simp [writeFb, BitVec.and_or_distrib_right, BitVec.and_assoc]

/-- A write to BB leaves only the bits of EB and FB in the bank cell (R17). -/
theorem writeBb_and_mask (v : Word) : writeBb v &&& 0x7C07#16 = writeBb v := by
  simp [writeBb, BitVec.and_assoc]

/-! ### The invariant under each update -/

/-- The invariant speaks of the configuration, the cells, the bank cell, L and Q only. -/
theorem Inv.of_eq (h : Inv s) (hcfg : t.cfg = s.cfg) (hmem : t.mem = s.mem) (hbb : t.bb = s.bb) (hl : t.l = s.l)
    (hq : t.q = s.q) : Inv t where
  config := by rw [hcfg]; exact h.config
  canonicalMemory := by rw [hmem]; exact h.canonicalMemory
  cells := by rw [hcfg, hmem]; exact h.cells
  narrowForm := by rw [hmem]; exact h.narrowForm
  bankCell := by rw [hbb]; exact h.bankCell
  narrowL := by rw [hcfg, hl]; exact h.narrowL
  narrowQ := by rw [hcfg, hq]; exact h.narrowQ

theorem Inv.setL (h : Inv s) (hv : s.cfg.wideRegs = .accQ → canonical v = true) : Inv (s.setL v) :=
  ⟨h.config, h.canonicalMemory, h.cells, h.narrowForm, h.bankCell, hv, h.narrowQ⟩

theorem Inv.setQ (h : Inv s) (hv : s.cfg.wideRegs = .accL → canonical v = true) : Inv (s.setQ v) :=
  ⟨h.config, h.canonicalMemory, h.cells, h.narrowForm, h.bankCell, h.narrowL, hv⟩

theorem Inv.setBb (h : Inv s) (hv : v &&& 0x7C07#16 = v) : Inv (s.setBb v) :=
  ⟨h.config, h.canonicalMemory, h.cells, h.narrowForm, hv, h.narrowL, h.narrowQ⟩

/-- A canonical value may go into any erasable cell (R27, R35). -/
theorem Inv.setErasable (h : Inv s) (ha : ErasableAt s.cfg a) (hv : canonical v = true) :
    Inv (s.setMem (s.mem.set a.toNat v)) where
  config := h.config
  canonicalMemory := Memory.wf_set h.canonicalMemory _ _
  cells c hc := by
    rcases Memory.mem_set hc with rfl | hc
    · exact .inl ha
    · exact h.cells c hc
  narrowForm c hc := by
    rcases Memory.mem_set hc with rfl | hc
    · exact hv
    · exact h.narrowForm c hc
  bankCell := h.bankCell
  narrowL := h.narrowL
  narrowQ := h.narrowQ

/-- Write keeps the invariant, whatever address it names: it narrows what goes into a 15-bit location (R34, R35). -/
theorem write_keeps_inv (h : Inv s) (hw : memWrite s a v = .ok t) : Inv t := by
  rcases write_cases hw with ⟨_, rfl⟩ | ⟨_, rfl⟩ | ⟨_, rfl⟩ | ⟨_, rfl⟩ | ⟨_, rfl⟩ | ⟨_, rfl⟩ | ⟨_, rfl⟩ | ⟨_, ha, rfl⟩
  · exact h.of_eq rfl rfl rfl rfl rfl
  · exact h.setL fun hr => by simp [hr]
  · exact h.setQ fun hr => by simp [hr]
  · exact h.setBb (writeEb_and_mask _ _)
  · exact h.setBb (writeFb_and_mask _ _)
  · exact h.of_eq rfl rfl rfl rfl rfl
  · exact h.setBb (writeBb_and_mask _)
  · exact h.setErasable ha (canonical_narrow _ _)

theorem closed_inv : Closed Inv where
  setA h _ := h.of_eq rfl rfl rfl rfl rfl
  setZ h _ := h.of_eq rfl rfl rfl rfl rfl
  write := write_keeps_inv

/-- Every cycle keeps the invariant: a handler reaches the state through Write and the updates of A, Z and the flags. -/
theorem step_keeps_inv (h : Inv s) (hs : step s = .next t) : Inv t :=
  step_keeps closed_inv (fun h _ => h.of_eq rfl rfl rfl rfl rfl) (fun h _ => h.of_eq rfl rfl rfl rfl rfl)
    (fun h _ => h.of_eq rfl rfl rfl rfl rfl) (fun h _ => h.of_eq rfl rfl rfl rfl rfl) h hs

/-- Every accepted host write keeps the invariant: it is a Write (R48, R178). -/
theorem hostWrite_keeps_inv {inputs : List Addr} (h : Inv s) (hw : hostWrite inputs s a v = some t) : Inv t := by
  obtain ⟨_, _, _, hw⟩ := hostWrite_cases hw
  exact write_keeps_inv h hw

/-- Settles O28: cycles and host writes keep the invariant, and the induction over a run is `runUntil_cases`. -/
theorem invariantKept : Obligations.InvariantKept :=
  ⟨fun _ _ => step_keeps_inv, fun _ _ _ _ _ => hostWrite_keeps_inv,
    fun _ _ _ _ h hr => (runEvents_cases step_keeps_inv hostWrite_keeps_inv h hr).1,
    fun _ _ _ _ _ _ h hr => (runUntil_cases step_keeps_inv hostWrite_keeps_inv h hr).1⟩

/-! ### The configuration and fixed memory -/

/-- A write that is answered lies below fixed memory (R34). -/
theorem write_addr_lt (h : memWrite s a v = .ok t) : a.toNat < 1024 := by
  rcases write_cases h with ⟨rfl, _⟩ | ⟨rfl, _⟩ | ⟨rfl, _⟩ | ⟨rfl, _⟩ | ⟨rfl, _⟩ | ⟨rfl, _⟩ | ⟨rfl, _⟩ |
    ⟨_, ⟨_, hle⟩, _⟩
  on_goal 8 => exact Nat.lt_succ_of_le hle
  all_goals decide

/-- `t` has the configuration and the fixed memory of `s`. -/
def SameFixed (s t : State) : Prop :=
  t.cfg = s.cfg ∧ ∀ n : Nat, 1024 ≤ n → t.mem.get n = s.mem.get n

theorem closed_sameFixed (s : State) : Closed (SameFixed s) where
  setA h _ := h
  setZ h _ := h
  write := by
    intro u t a v ⟨hcfg, hmem⟩ hw
    obtain ⟨hcfg', _⟩ := write_flags hw
    have ha := write_addr_lt hw
    exact ⟨hcfg'.trans hcfg, fun n hn => (write_mem_of_ne hw (by omega)).trans (hmem n hn)⟩

/-- Settles O25: every update of a handler keeps both, since only an address below 1024 takes a write. -/
theorem configurationAndFixedMemoryKept : Obligations.ConfigurationAndFixedMemoryKept := by
  intro s t h
  exact step_keeps (closed_sameFixed s) (fun h _ => h) (fun h _ => h) (fun h _ => h) (fun h _ => h)
    ⟨rfl, fun _ _ => rfl⟩ h

/-! ### What the CORE does not implement -/

/-- An instruction that is not admitted leaves the state of an unimplemented one (R9). -/
theorem gated_notImplemented {i : Instr} {name : UnimplementedName} {body : State → Handled}
    (h : s.cfg.admitUndescribed = false) : gated i name s body = .next (notImplemented s i name) :=
  gated_refused h

/-- A word of opcode 0 in the extended table is an I/O instruction by its IOP (R54). -/
theorem decode_wordIo (iop : BitVec 3) (ch : Channel) : decode true (wordIo iop ch) = decodeIo iop ch := by
  simp [decode, decodeExtended]

theorem decode_dv (e : EField) : decode true (wordE 1#3 0#2 e) = .dv e := by
  simp [decode, decodeExtended]

/-- The eight I/O operations. -/
theorem iop_cases (iop : BitVec 3) : iop = 0#3 ∨ iop = 1#3 ∨ iop = 2#3 ∨ iop = 3#3 ∨ iop = 4#3 ∨ iop = 5#3 ∨
    iop = 6#3 ∨ iop = 7#3 := by
  revert iop
  decide

/-- Every I/O instruction is unimplemented, under the name of its IOP and channel (R160). -/
theorem exec_decodeIo (iop : BitVec 3) (ch : Channel) (s : State) :
    exec (decodeIo iop ch) s = .next (notImplemented s (decodeIo iop ch) (.io iop ch)) := by
  rcases iop_cases iop with rfl | rfl | rfl | rfl | rfl | rfl | rfl | rfl <;> rfl

/-- Settles O56: the words decode by their fields, and each meaning is the Unimplemented verdict, for the undescribed five
by the gate. -/
theorem unimplementedInstructions : Obligations.UnimplementedInstructions := by
  intro s e ch
  refine ⟨decode_dv e, rfl, by decide, rfl, ?_, fun h => ?_⟩
  · rintro iop _ rfl
    have hd : decode true (0#3 ++ (iop ++ ch : Addr)) = decodeIo iop ch := decode_wordIo iop ch
    rw [hd]
    refine ⟨?_, exec_decodeIo iop ch s⟩
    rcases iop_cases iop with rfl | rfl | rfl | rfl | rfl | rfl | rfl | rfl <;> rfl
  · exact ⟨gated_notImplemented h, gated_notImplemented h, gated_notImplemented h, gated_notImplemented h,
      gated_notImplemented h⟩

end Sys2Proof.Machine
end

section
/-! PROOFS. The state statements: what a write changes, the views of the bank cell, the flag IE, and what boot loads. -/

namespace Sys2Proof.Machine

open Sys2Proof.Claims

variable {s t : State} {a b : Addr} {v : Word}

/-! ### What a write changes -/

/-- A read depends on the configuration and on its own register or cell only (R33). -/
theorem read_congr (hcfg : t.cfg = s.cfg) (ha : b = 0#12 → t.a = s.a) (hl : b = 1#12 → t.l = s.l)
    (hq : b = 2#12 → t.q = s.q) (hz : b = 5#12 → t.z = s.z) (hbb : b = 3#12 ∨ b = 4#12 ∨ b = 6#12 → t.bb = s.bb)
    (hmem : t.mem.get b.toNat = s.mem.get b.toNat) : memRead t b = memRead s b := by
  rcases Nat.lt_or_ge 7 b.toNat with h7 | h7
  · rw [memRead, memRead, hcfg, hmem, region_of_gt_seven h7]
    split_ifs <;> rfl
  · rcases register_cases h7 with rfl | rfl | rfl | rfl | rfl | rfl | rfl | rfl
    · exact congrArg Except.ok (ha rfl)
    · exact congrArg Except.ok (hl rfl)
    · exact congrArg Except.ok (hq rfl)
    · exact congrArg (Except.ok <| readEb ·) (hbb (by simp))
    · exact congrArg (Except.ok <| readFb ·) (hbb (by simp))
    · exact congrArg (Except.ok <| zext16 ·) (hz rfl)
    · exact congrArg (Except.ok <| readBb ·) (hbb (by simp))
    · rfl

/-- A write leaves what every other address reads, but for EB, FB and BB among themselves (R41). -/
theorem read_of_write_of_ne (hw : memWrite s a v = .ok t) (hne : b ≠ a)
    (hbank : ¬((a = 3#12 ∨ a = 4#12 ∨ a = 6#12) ∧ (b = 3#12 ∨ b = 4#12 ∨ b = 6#12))) :
    memRead t b = memRead s b := by
  obtain ⟨hcfg, _⟩ := write_flags hw
  obtain ⟨ha, hl, hq, hz, hbb⟩ := write_registers hw
  have other : ∀ {c : Addr}, b = c → a ≠ c := fun hb h => hne (hb.trans h.symm)
  refine read_congr hcfg (fun hb => ha (other hb)) (fun hb => hl (other hb)) (fun hb => hq (other hb))
    (fun hb => hz (other hb)) (fun hb => ?_) (write_mem_of_ne hw (mt BitVec.eq_of_toNat_eq hne))
  exact hbb (fun h => hbank ⟨.inl h, hb⟩) (fun h => hbank ⟨.inr (.inl h), hb⟩) (fun h => hbank ⟨.inr (.inr h), hb⟩)

/-- An erasable cell reads back the narrowed value (R34, R35). -/
theorem read_of_write_erasable (hc : s.cfg.legal = true) (hm : s.mem.wf = true) (hw : memWrite s a v = .ok t)
    (ha : ErasableAt s.cfg a) : memRead t a = .ok (narrow s.cfg v) := by
  obtain ⟨hcfg, _⟩ := write_flags hw
  rw [write_erasable hc ha] at hw
  rw [read_cell (hcfg ▸ hc) (hcfg ▸ .inl ha), ← Except.ok.inj hw, State.setMem_mem, Memory.get_set_self hm]

/-- Settles O15, by the frame of a write on reads, on the flags and on the form of memory. -/
theorem writeTouchesItsCell : Obligations.WriteTouchesItsCell := fun _ _ _ _ hc hm hw =>
  ⟨fun _ => read_of_write_of_ne hw, read_of_write_erasable hc hm hw, write_keeps_mem_wf hw hm, write_flags hw⟩

/-! ### The views of the bank cell -/

theorem readEb_writeEb (bb v : Word) : readEb (writeEb bb v) = v &&& 0x0700#16 := by
  have hv : ((v >>> 8) &&& 0x0007#16) <<< 8 = v &&& 0x0700#16 := by
    rw [BitVec.shiftLeft_and_distrib, BitVec.shiftLeft_ushiftRight, BitVec.and_assoc]
    rfl
  simp [readEb, writeEb, BitVec.and_or_distrib_right, BitVec.and_assoc, hv]

theorem readFb_writeEb (bb v : Word) : readFb (writeEb bb v) = readFb bb := by
  simp [readFb, writeEb, BitVec.and_or_distrib_right, BitVec.and_assoc]

theorem readFb_writeFb (bb v : Word) : readFb (writeFb bb v) = v &&& 0x7C00#16 := by
  simp [readFb, writeFb, BitVec.and_or_distrib_right, BitVec.and_assoc]

theorem readEb_writeFb (bb v : Word) : readEb (writeFb bb v) = readEb bb := by
  simp [readEb, writeFb, BitVec.and_or_distrib_right, BitVec.and_assoc]

theorem readFb_writeBb (v : Word) : readFb (writeBb v) = v &&& 0x7C00#16 := by
  simp [readFb, writeBb, BitVec.and_assoc]

theorem readEb_writeBb (v : Word) : readEb (writeBb v) = (v &&& 0x0007#16) <<< 8 := by
  simp [readEb, writeBb, BitVec.and_assoc]

/-- Settles O16: the masks of the two fields are disjoint, and BB shows both as the cell holds them. -/
theorem bankViews : Obligations.BankViews := fun s v _ =>
  ⟨⟨s.setBb (writeEb s.bb v), rfl, congrArg Except.ok (readEb_writeEb s.bb v),
      congrArg Except.ok (readFb_writeEb s.bb v), congrArg Except.ok (writeEb_and_mask s.bb v)⟩,
    ⟨s.setBb (writeFb s.bb v), rfl, congrArg Except.ok (readFb_writeFb s.bb v),
      congrArg Except.ok (readEb_writeFb s.bb v), congrArg Except.ok (writeFb_and_mask s.bb v)⟩,
    ⟨s.setBb (writeBb v), rfl, congrArg Except.ok (writeBb_and_mask v),
      congrArg Except.ok (readFb_writeBb v), congrArg Except.ok (readEb_writeBb v)⟩⟩

/-! ### The interrupt enable flag -/

theorem exec_relint (s : State) : exec .relint s = .next (s.beginExec.setIe true) := rfl

theorem exec_inhint (s : State) : exec .inhint s = .next (s.beginExec.setIe false) := rfl

theorem closed_ie (x : Bool) : Closed fun u => u.ie = x where
  setA h _ := h
  setZ h _ := h
  write h hw := by
    obtain ⟨_, _, _, hie, _⟩ := write_flags hw
    exact hie.trans h

/-- No other meaning writes IE, whether it completes or faults (R24). -/
theorem exec_ie_of_ne {i : Instr} (hr : i ≠ .relint) (hi : i ≠ .inhint) (h : exec i s = .next t) : t.ie = s.ie :=
  exec_keeps (closed_ie s.ie) (fun h _ => h) (fun hor => (hor.elim hr hi).elim) (fun h _ => h) (fun h _ => h) rfl h

/-- Settles O26: the cycle runs the decoded instruction, and only RELINT and INHINT update IE. -/
theorem interruptEnableFlag : Obligations.InterruptEnableFlag := by
  intro s t w hf hw h
  rw [step_of_fetch hf hw] at h
  refine ⟨fun hd => ?_, fun hd => ?_, fun hr hi => exec_ie_of_ne (s := s.setBias 0#16) hr hi h⟩
  · rw [hd, exec_relint] at h
    cases h
    rfl
  · rw [hd, exec_inhint] at h
    cases h
    rfl

/-! ### Boot -/

/-- The loader leaves the cells below the first address it loads (R183). -/
theorem get_loadWords_of_lt (m : Memory) {n k : Nat} (h : k < n) (image : List Word) :
    (loadWords m n image).get k = m.get k := by
  induction image generalizing m n with
  | nil => rfl
  | cons w rest ih => rw [loadWords, ih _ (by omega), Memory.get_set_of_ne _ _ (by omega)]

/-- From its first address on, a loaded memory holds the image words in 15-bit form, then what it held (R183). -/
theorem get_loadWords_add {m : Memory} (hm : m.wf = true) (n j : Nat) (image : List Word) :
    (loadWords m n image).get (n + j) = (image.map sext16).getD j (m.get (n + j)) := by
  induction image generalizing m n j with
  | nil => rfl
  | cons w rest ih =>
    rw [loadWords]
    cases j with
    | zero =>
      rw [get_loadWords_of_lt _ (by omega)]
      exact Memory.get_set_self hm n _
    | succ j =>
      have hn : n + (j + 1) = n + 1 + j := by omega
      rw [hn, ih (Memory.wf_set hm n _), Memory.get_set_of_ne _ _ (by omega), List.map_cons, List.getD_cons_succ]

/-- Loaded into empty memory, an image is followed by +0 (R183). -/
theorem get_loadWords_nil_add (n j : Nat) (image : List Word) :
    (loadWords [] n image).get (n + j) = sext16 (image.getD j 0x0000#16) := by
  have h0 : Memory.get [] (n + j) = sext16 0x0000#16 := rfl
  rw [get_loadWords_add rfl, h0, List.getD_map]

theorem boot_of_lt {c : Config} {image : List Word} (entryPc : Addr) (h : c.fixedSize < image.length) :
    boot c image entryPc = none := if_pos h

theorem boot_of_le {c : Config} {image : List Word} (entryPc : Addr) (h : image.length ≤ c.fixedSize) :
    boot c image entryPc = some ((State.initial c entryPc).setMem (loadWords [] c.fixedBase image)) :=
  if_neg (by omega)

/-- Settles O30: the registers are those of the initial state, and the loader's cells start above erasable memory. -/
theorem bootLoadsTheImage : Obligations.BootLoadsTheImage := by
  intro c image entryPc hc
  refine ⟨boot_of_lt entryPc, fun hle => ⟨_, boot_of_le entryPc hle, rfl, rfl, rfl, rfl, rfl, rfl, rfl, rfl, rfl, rfl,
    fun n _ hn => ?_, fun j _ => get_loadWords_nil_add c.fixedBase j image⟩⟩
  obtain ⟨_, hbase, _⟩ := legal_iff.mp hc
  exact get_loadWords_of_lt [] (by omega) image

end Sys2Proof.Machine
end

section
/-! PROOFS. The memory statements: the width enforcement of a write, and what Read, Read16 and Write do at every
address. -/

namespace Sys2Proof.Machine

open Sys2Proof.Claims

variable {s : State} {a : Addr} {v : Word} {c : Config}

/-! ### Width enforcement -/

theorem narrow_of_strip (h : c.narrowWriteMode = .strip) (v : Word) : narrow c v = sext16 v := by
  rw [narrow, h]

theorem narrow_of_correct (h : c.narrowWriteMode = .correct) (v : Word) : narrow c v = correct v := by
  rw [narrow, h]

/-- Settles O10: without a pending overflow a value is canonical, and both modes keep it. -/
theorem narrowForms : Obligations.NarrowForms := by
  refine ⟨fun _ v h => narrow_of_strip h v, fun _ v h => narrow_of_correct h v, canonical_narrow,
    fun _ _ => narrow_of_canonical, fun c d v hne hovf => hne ?_⟩
  have hv : canonical v = true := (ovf_eq_none_iff v).mp hovf
  rw [narrow_of_canonical hv, narrow_of_canonical hv]

/-! ### Read -/

/-- Settles O12: a register is read by its number, every other address by its region. -/
theorem readMap : Obligations.ReadMap := fun _ hc =>
  ⟨rfl, rfl, rfl, rfl, rfl, rfl, rfl, rfl, fun _ => ⟨read_reserved, read_cell hc, read_noBank hc⟩⟩

/-! ### Read16 -/

@[simp] theorem wide_a (c : Config) : wide c 0#12 = true := rfl

theorem wide_l (c : Config) : wide c 1#12 = decide (c.wideRegs = .accL) := by
  unfold wide
  cases c.wideRegs <;> rfl

theorem wide_q (c : Config) : wide c 2#12 = decide (c.wideRegs = .accQ) := by
  unfold wide
  cases c.wideRegs <;> rfl

theorem read16_of_read_error {f : AccessFault} (h : memRead s a = .error f) : read16 s a = .error f := by
  rw [read16, h]

theorem read16_of_wide (hw : wide s.cfg a = true) (h : memRead s a = .ok v) : read16 s a = .ok v := by
  rw [read16_of_read h, if_pos hw]

/-- Above Q every location is narrow, and Read16 sign-extends (R20, R36). -/
theorem read16_of_two_lt (ha : 2 < a.toNat) (h : memRead s a = .ok v) : read16 s a = .ok (sext16 v) := by
  rw [read16_of_read h, wide_of_two_lt ha, if_neg Bool.false_ne_true]

/-- On a value in the 15-bit form the accumulator-form read agrees with Read, wide location or not (R36). -/
theorem read16_of_canonical (hv : canonical v = true) (h : memRead s a = .ok v) : read16 s a = .ok v := by
  rw [read16_of_read h, sext16_of_canonical hv, ite_self]

/-- Bits 10:8 are all that EB shows (R17). -/
theorem canonical_readEb (bb : Word) : canonical (readEb bb) = true := by
  simp [canonical, readEb]

/-- A narrow location reads in 15-bit form, but for FB and BB, whose bit 14 is a bit of the FB field and whose bit 15 is
zero (R17, R27, R35). -/
theorem canonical_of_read (hi : Inv s) (hw : wide s.cfg a = false) (h4 : a ≠ 4#12) (h6 : a ≠ 6#12)
    (h : memRead s a = .ok v) : canonical v = true := by
  have cell (ha : ErasableAt s.cfg a ∨ BankAt s.cfg a) : canonical v = true := by
    rw [read_cell hi.config ha] at h
    exact Except.ok.inj h ▸ Memory.canonical_get hi.narrowForm _
  rcases address_cases s.cfg a with ha | ha | ha | ha | ha
  · rcases register_cases ha with rfl | rfl | rfl | rfl | rfl | rfl | rfl | rfl <;> cases h
    · cases hw
    · cases hr : s.cfg.wideRegs with
      | accQ => exact hi.narrowL hr
      | accL => simp [wide_l, hr] at hw
    · cases hr : s.cfg.wideRegs with
      | accQ => simp [wide_q, hr] at hw
      | accL => exact hi.narrowQ hr
    · exact canonical_readEb _
    · exact absurd rfl h4
    · exact canonical_zext16 _
    · exact absurd rfl h6
    · rfl
  · rw [read_reserved ha] at h
    cases h
  · exact cell (.inl ha)
  · exact cell (.inr ha)
  · rw [read_noBank hi.config ha] at h
    cases h

/-- Settles O13: a wide location reads raw, a narrow one but FB and BB holds a value that sign extension keeps. -/
theorem accumulatorFormRead : Obligations.AccumulatorFormRead := by
  intro s a hi
  refine ⟨fun f => read16_of_read_error, fun v h => ⟨?_, ?_, ?_, ?_, fun _ h4 _ h6 => ?_⟩⟩
  · rintro rfl
    exact read16_of_wide (wide_a _) h
  · rintro rfl hl
    exact read16_of_wide (by simp [wide_l, hl]) h
  · rintro rfl hq
    exact read16_of_wide (by simp [wide_q, hq]) h
  · intro ha
    have h2 : 2 < a.toNat := by rcases ha with rfl | rfl | rfl | rfl <;> decide
    exact read16_of_two_lt h2 h
  · cases hw : wide s.cfg a with
    | true => exact read16_of_wide hw h
    | false => exact read16_of_canonical (canonical_of_read hi hw h4 h6 h) h

/-! ### Write -/

/-- Fixed memory takes no write, in the bank or outside it (R34, R167). -/
theorem write_fixed (hc : s.cfg.legal = true) (h : 1024 ≤ a.toNat) :
    memWrite s a v = .error { code := .writeToFixed, addr := a } := by
  by_cases hb : BankAt s.cfg a
  · simp only [memWrite, region_bank hc hb]
  · simp only [memWrite, region_noBank hc ⟨h, hb⟩]

/-- The field that a write to EB takes, as bits 10:8 of the value (R17). -/
theorem ushiftRight_and_seven (v : Word) : (v >>> 8) &&& 0x0007#16 = (v.extractLsb' 8 3).setWidth 16 := by
  have hmod : v.toNat >>> 8 &&& 7 = v.toNat >>> 8 % 8 := Nat.and_two_pow_sub_one_eq_mod _ 3
  apply BitVec.eq_of_toNat_eq
  simp only [BitVec.toNat_and, BitVec.toNat_ushiftRight, BitVec.toNat_setWidth, BitVec.extractLsb'_toNat,
    BitVec.toNat_ofNat, Nat.reduceMod, Nat.reducePow, hmod]
  omega

/-- A write to EB takes bits 10:8 of the value and keeps FB (R17). -/
theorem write_eb (s : State) (v : Word) :
    memWrite s 3#12 v = .ok (s.setBb ((s.bb &&& 0x7C00#16) ||| (v.extractLsb' 8 3).setWidth 16)) := by
  rw [← ushiftRight_and_seven]
  rfl

/-- Settles O14: a register takes a write by its number, every other address by its region. -/
theorem writeMap : Obligations.WriteMap := fun s v hc =>
  ⟨rfl, write_l s v, write_q s v, write_eb s v, rfl, rfl, rfl, rfl,
    fun _ => ⟨write_reserved, write_erasable hc, write_fixed hc⟩⟩

end Sys2Proof.Machine
end

section
/-! PROOFS. The encoding statements: the decoder inverts the encoder in each of the two tables, each table has an
instruction for every word, and the implied words of opcode 0. -/

namespace Sys2Proof.Machine

open Sys2Proof.Claims

variable {s : State} {k f : Addr} {e : EField}

/-! ### The field conditions -/

theorem wf_tc_iff : (Instr.tc k).wf = true ↔ k ≠ 2#12 ∧ k ≠ 3#12 ∧ k ≠ 4#12 ∧ k ≠ 6#12 := by
  simp [Instr.wf, and_assoc]

theorem wf_index_iff : (Instr.index e).wf = true ↔ e ≠ 15#10 := by
  simp [Instr.wf]

theorem quarter_cases (qc : BitVec 2) : qc = 0#2 ∨ qc = 1#2 ∨ qc = 2#2 ∨ qc = 3#2 := by
  revert qc
  decide

/-- A fixed target has a non-zero quarter-code (R51). -/
theorem fieldQc_wordK_ne_zero (op : BitVec 3) (hf : 1024 ≤ f.toNat) : fieldQc (wordK op f) ≠ 0#2 := by
  rw [Ne, fieldQc_eq_zero_iff, fieldK_wordK]
  omega

/-- A non-zero quarter-code makes a fixed target (R51). -/
theorem le_toNat_append {qc : BitVec 2} (hq : qc ≠ 0#2) (e : EField) : 1024 ≤ (qc ++ e : Addr).toNat := by
  have h := fieldQc_eq_zero_iff (wordE 0#3 qc e)
  rw [fieldQc_wordE, wordE_eq, fieldK_wordK] at h
  exact Nat.le_of_not_lt (mt h.mpr hq)

/-! ### Decoding an encoded instruction -/

/-- An address that is none of the implied literals is the address of a TC (R55). -/
theorem decodeZero_of_wf (h : (Instr.tc k).wf = true) : decodeZero k = .tc k := by
  obtain ⟨h2, h3, h4, h6⟩ := wf_tc_iff.mp h
  rw [decodeZero, if_neg h2, if_neg h3, if_neg h4, if_neg h6]

/-- Settles O1, row by row: only TC, INDEX and the fixed targets share the opcode and quarter-code of another row, and
their field conditions tell the two apart. -/
theorem decodeOfEncode : Obligations.DecodeOfEncode := by
  intro i hw
  cases i with
  | tc k => simp [decode, Instr.extended, decodeBasic, encode, decodeZero_of_wf hw]
  | index e => simp [decode, Instr.extended, decodeBasic, encode, wf_index_iff.mp hw]
  | tcf f => simp [decode, Instr.extended, decodeBasic, encode, fieldQc_wordK_ne_zero _ (of_decide_eq_true hw)]
  | bzf f | bzmf f =>
    simp [decode, Instr.extended, decodeExtended, encode, fieldQc_wordK_ne_zero _ (of_decide_eq_true hw)]
  | ret | relint | inhint | extend | resume => rfl
  | read ch | write ch | rand ch | wand ch | ror ch | wor ch | rxor ch | edrupt ch => exact decode_wordIo _ ch
  | _ => simp [decode, Instr.extended, decodeBasic, decodeExtended, encode]

/-! ### Each table has an instruction for every word -/

/-- A well-formed instruction of the table has this word. -/
def HasInstr (ext : Bool) (w : Word15) : Prop := ∃ i : Instr, i.wf = true ∧ i.extended = ext ∧ encode i = w

/-- Basic opcode 0 is TC, and the four words TC leaves out are the implied instructions (R55). -/
theorem hasInstr_zero (k : Addr) : HasInstr false (wordK 0#3 k) := by
  by_cases h : (Instr.tc k).wf = true
  · exact ⟨.tc k, h, rfl, rfl⟩
  · have hk : k = 2#12 ∨ k = 3#12 ∨ k = 4#12 ∨ k = 6#12 := by
      rw [wf_tc_iff] at h
      tauto
    rcases hk with rfl | rfl | rfl | rfl
    · exact ⟨.ret, rfl, rfl, rfl⟩
    · exact ⟨.relint, rfl, rfl, rfl⟩
    · exact ⟨.inhint, rfl, rfl, rfl⟩
    · exact ⟨.extend, rfl, rfl, rfl⟩

/-- Extended opcode 0 is an I/O instruction for every IOP (R54). -/
theorem hasInstr_wordIo (iop : BitVec 3) (ch : Channel) : HasInstr true (wordIo iop ch) := by
  refine ⟨decodeIo iop ch, ?_⟩
  rcases iop_cases iop with rfl | rfl | rfl | rfl | rfl | rfl | rfl | rfl <;> exact ⟨rfl, rfl, rfl⟩

/-- The basic INDEX leaves out the word of RESUME (R56). -/
theorem hasInstr_index (e : EField) : HasInstr false (wordE 5#3 0#2 e) := by
  obtain rfl | he := eq_or_ne e 15#10
  · exact ⟨.resume, rfl, rfl, rfl⟩
  · exact ⟨.index e, wf_index_iff.mpr he, rfl, rfl⟩

/-- The rows of R53 cover the words. -/
theorem hasInstr_basic (op : BitVec 3) (qc : BitVec 2) (e : EField) : HasInstr false (wordE op qc e) := by
  rcases iop_cases op with rfl | rfl | rfl | rfl | rfl | rfl | rfl | rfl
  · exact hasInstr_zero _
  · obtain rfl | hq := eq_or_ne qc 0#2
    · exact ⟨.ccs e, rfl, rfl, rfl⟩
    · exact ⟨.tcf (qc ++ e), decide_eq_true (le_toNat_append hq e), rfl, rfl⟩
  · rcases quarter_cases qc with rfl | rfl | rfl | rfl
    · exact ⟨.das e, rfl, rfl, rfl⟩
    · exact ⟨.lxch e, rfl, rfl, rfl⟩
    · exact ⟨.incr e, rfl, rfl, rfl⟩
    · exact ⟨.ads e, rfl, rfl, rfl⟩
  · exact ⟨.ca (qc ++ e), rfl, rfl, rfl⟩
  · exact ⟨.cs (qc ++ e), rfl, rfl, rfl⟩
  · rcases quarter_cases qc with rfl | rfl | rfl | rfl
    · exact hasInstr_index e
    · exact ⟨.dxch e, rfl, rfl, rfl⟩
    · exact ⟨.ts e, rfl, rfl, rfl⟩
    · exact ⟨.xch e, rfl, rfl, rfl⟩
  · exact ⟨.ad (qc ++ e), rfl, rfl, rfl⟩
  · exact ⟨.mask (qc ++ e), rfl, rfl, rfl⟩

/-- The rows of R54 cover the words. -/
theorem hasInstr_extended (op : BitVec 3) (qc : BitVec 2) (e : EField) : HasInstr true (wordE op qc e) := by
  rcases iop_cases op with rfl | rfl | rfl | rfl | rfl | rfl | rfl | rfl
  · exact wordIo_fields _ (fieldOp_wordE _ qc e) ▸ hasInstr_wordIo _ _
  · obtain rfl | hq := eq_or_ne qc 0#2
    · exact ⟨.dv e, rfl, rfl, rfl⟩
    · exact ⟨.bzf (qc ++ e), decide_eq_true (le_toNat_append hq e), rfl, rfl⟩
  · rcases quarter_cases qc with rfl | rfl | rfl | rfl
    · exact ⟨.msu e, rfl, rfl, rfl⟩
    · exact ⟨.qxch e, rfl, rfl, rfl⟩
    · exact ⟨.aug e, rfl, rfl, rfl⟩
    · exact ⟨.dim e, rfl, rfl, rfl⟩
  · exact ⟨.dca (qc ++ e), rfl, rfl, rfl⟩
  · exact ⟨.dcs (qc ++ e), rfl, rfl, rfl⟩
  · exact ⟨.indexK (qc ++ e), rfl, rfl, rfl⟩
  · obtain rfl | hq := eq_or_ne qc 0#2
    · exact ⟨.su e, rfl, rfl, rfl⟩
    · exact ⟨.bzmf (qc ++ e), decide_eq_true (le_toNat_append hq e), rfl, rfl⟩
  · exact ⟨.mp (qc ++ e), rfl, rfl, rfl⟩

theorem hasInstr (ext : Bool) (w : Word15) : HasInstr ext w := by
  rw [← wordE_fields w]
  cases ext with
  | false => exact hasInstr_basic _ _ _
  | true => exact hasInstr_extended _ _ _

/-- Settles O2: a word is the word of some instruction of the table, and that instruction is what it decodes to. -/
theorem encodeOfDecode : Obligations.EncodeOfDecode := by
  intro ext w
  obtain ⟨i, hwf, rfl, rfl⟩ := hasInstr ext w
  rw [decodeOfEncode i hwf]
  exact ⟨rfl, hwf, rfl⟩

/-! ### The implied words -/

/-- A handler whose first access is an accumulator-form read stops there when the address is reserved (R163). -/
theorem runHandler_read16_reserved {a : Addr} (ha : ReservedAt s.cfg a) (i : Instr) (body : State → Word → Handled) :
    runHandler i s (fun t => onRead16 t a (body t)) = .next (faulted (began s) i s.z .reservedAddress a) := by
  have hbegan : ReservedAt s.beginExec.cfg a := ha
  exact runHandler_raised (body := fun t => onRead16 t a (body t)) (onRead16_error (read16_reserved hbegan) _)

theorem indexK_stopsAtReserved (k : Addr) (s : State) : StopsAtReserved (.indexK k) k s := fun hk =>
  runHandler_read16_reserved hk (.indexK k) fun t m => .done ((t.setBias m).setExt true)

/-- The address of the RESUME word is reserved in every legal configuration (R32). -/
theorem reservedAt_fifteen (hc : s.cfg.legal = true) : ReservedAt s.cfg 15#12 := by
  obtain ⟨hfirst, _⟩ := legal_iff.mp hc
  have h15 : (15#12 : Addr).toNat = 15 := rfl
  unfold ReservedAt
  omega

/-- Settles O4: each word is the encoding of the instruction it stands for. -/
theorem impliedLiterals : Obligations.ImpliedLiterals := by
  refine ⟨decodeOfEncode .ret rfl, decodeOfEncode .relint rfl, decodeOfEncode .inhint rfl, decodeOfEncode .extend rfl,
    fun k h2 h3 h4 h6 => decodeOfEncode (.tc k) (wf_tc_iff.mpr ⟨h2, h3, h4, h6⟩),
    fun ch _ _ => ⟨decodeOfEncode (.read ch) rfl, exec_decodeIo 0#3 ch⟩,
    decodeOfEncode .resume rfl, decodeOfEncode (.indexK 15#12) rfl, fun s hc => ⟨rfl, ?_⟩⟩
  exact indexK_stopsAtReserved 15#12 s (reservedAt_fifteen hc)

end Sys2Proof.Machine
end

section
/-! PROOFS. The ALU statements: the modified add and its laws, the integers of the two forms, the overflow bookkeeper,
and the corrected store. -/

namespace Sys2Proof.Machine

variable {s : State} {a : Addr} {v x y : Word}

/-! ### The modified add -/

/-- Settles O5: the carry out of bit 15 is worth 65536 and comes back as 1. -/
theorem addWithEndAroundCarry : Obligations.AddWithEndAroundCarry := add_toNat

/-- The modified add is addition modulo 65535, which has one zero where a word has two (R82). -/
theorem add_toNat_mod (x y : Word) : (add x y).toNat % 65535 = (x.toNat + y.toNat) % 65535 := by
  rw [add_toNat]
  split
  next hcarry => exact (Nat.mod_eq_sub_mod (by omega)).symm
  next => rfl

theorem add_eq_zero_iff : add x y = 0#16 ↔ x = 0#16 ∧ y = 0#16 := by
  simp only [← BitVec.toNat_inj, add_toNat, BitVec.toNat_ofNat]
  split <;> omega

theorem add_eq_negativeZero_iff :
    add x y = 0xFFFF#16 ↔ x.toNat + y.toNat = 0xFFFF ∨ x.toNat + y.toNat = 0x1FFFE := by
  have hx := x.isLt
  have hy := y.isLt
  simp only [← BitVec.toNat_inj, add_toNat, BitVec.toNat_ofNat]
  split <;> omega

/-- Congruent words differ only as the two zeros do. -/
theorem eq_of_toNat_mod_eq (hmod : x.toNat % 65535 = y.toNat % 65535) (hzero : x = 0#16 ↔ y = 0#16) : x = y := by
  have hx := x.isLt
  have hy := y.isLt
  simp only [← BitVec.toNat_inj, BitVec.toNat_ofNat] at hzero ⊢
  omega

theorem modifiedAdd_comm (x y : Word) : add x y = add y x := by
  apply BitVec.eq_of_toNat_eq
  rw [add_toNat, add_toNat, Nat.add_comm]

/-- The two groupings are congruent, and either is +0 only when all three summands are (R82). -/
theorem modifiedAdd_assoc (x y z : Word) : add (add x y) z = add x (add y z) := by
  have hxy := add_toNat_mod x y
  have hyz := add_toNat_mod y z
  apply eq_of_toNat_mod_eq
  · rw [add_toNat_mod, add_toNat_mod]
    omega
  · simp only [add_eq_zero_iff, and_assoc]

theorem toNat_add_toNat_not (x : Word) : x.toNat + (~~~x).toNat = 0xFFFF := by
  have hx := x.isLt
  rw [BitVec.toNat_not]
  omega

/-- Settles O6, each law by its own lemma; a word and its complement sum to 0xFFFF without a carry. -/
theorem addLaws : Obligations.AddLaws :=
  ⟨add_zero, modifiedAdd_comm, modifiedAdd_assoc, fun _ _ => add_eq_zero_iff, fun _ _ => add_eq_negativeZero_iff,
    add_toNat_mod, fun x => add_eq_negativeZero_iff.mpr (.inl (toNat_add_toNat_not x))⟩

/-! ### The integer of an accumulator-form value -/

/-- The integer of a value is the residue of the word modulo 65535 that lies nearest to zero (R83). -/
theorem val16_eq_bmod (v : Word) : val16 v = (v.toNat : Int).bmod 65535 := by
  have hv := v.isLt
  rw [val16_eq, Int.bmod_def]
  split <;> split <;> omega

/-- A sum out of range wraps modulo 65535 (R93). -/
theorem val16_add (x y : Word) : val16 (add x y) = (val16 x + val16 y).bmod 65535 := by
  have hmod : ((add x y).toNat : Int) % (65535 : Nat) = (x.toNat + y.toNat : Int) % (65535 : Nat) :=
    mod_cast add_toNat_mod x y
  rw [val16_eq_bmod, val16_eq_bmod, val16_eq_bmod, Int.add_bmod_bmod, Int.bmod_add_bmod, ← Int.emod_bmod, hmod,
    Int.emod_bmod]

theorem val16_range (v : Word) : -32767 ≤ val16 v ∧ val16 v ≤ 32767 := by
  have hv := v.isLt
  rw [val16_eq]
  split <;> omega

theorem val16_eq_zero_iff (v : Word) : val16 v = 0 ↔ v = 0x0000#16 ∨ v = 0xFFFF#16 := by
  rw [val16_eq]
  simp only [← BitVec.toNat_inj, BitVec.toNat_ofNat]
  split <;> omega

theorem low15_toNat (v : Word) : (low15 v).toNat = v.toNat % 32768 := BitVec.toNat_setWidth ..

/-- R88 in natural numbers. -/
theorem toSigned_eq (v : Word) :
    toSigned v =
      if 16384 ≤ v.toNat % 32768 then ((v.toNat % 32768 : Nat) : Int) - 32767 else (v.toNat % 32768 : Nat) := by
  rw [toSigned, toSigned15_eq, low15_toNat]

/-- Without a pending overflow the 16-bit and the 15-bit reading agree (R83). -/
theorem val16_of_canonical (h : canonical v = true) : val16 v = toSigned v := by
  have hv := v.isLt
  have htop : 32768 ≤ v.toNat ↔ 16384 ≤ v.toNat % 32768 := by
    rw [canonical_iff, getLsbD_15, getLsbD_14] at h
    exact decide_eq_decide.mp h
  rw [val16_eq, toSigned_eq]
  split <;> split <;> omega

/-- Settles O7: a sum in range is its own residue nearest to zero. -/
theorem addIsSignedSum : Obligations.AddIsSignedSum := by
  refine ⟨val16_range, val16_eq_zero_iff, fun _ => val16_of_canonical, fun x y hlow hhigh => ?_⟩
  rw [val16_add]
  exact Int.bmod_eq_of_le (by omega) (by omega)

/-! ### Overflow and correction -/

theorem ovf_eq_positive_iff : ovf v = .positive ↔ v.getLsbD 15 = false ∧ v.getLsbD 14 = true := by
  unfold ovf
  cases v.getLsbD 15 <;> cases v.getLsbD 14 <;> simp

theorem ovf_eq_negative_iff : ovf v = .negative ↔ v.getLsbD 15 = true ∧ v.getLsbD 14 = false := by
  unfold ovf
  cases v.getLsbD 15 <;> cases v.getLsbD 14 <;> simp

theorem correct_of_ovf_ne_none (h : ovf v ≠ .none) : correct v = v ^^^ 0x4000#16 :=
  if_neg fun hbits => h ((ovf_eq_none_iff v).mpr ((canonical_iff v).mpr hbits))

theorem getLsbD_bit14 (i : Nat) (h : i < 16) : (0x4000#16).getLsbD i = decide (i = 14) := by
  revert i
  decide

/-- Setting a clear bit 14 adds 16384: no carry arises, so sum, disjunction and exclusive or agree. -/
theorem toNat_xor_bit14 (h : v.getLsbD 14 = false) : (v ^^^ 0x4000#16).toNat = v.toNat + 16384 := by
  have hdisjoint : v &&& 0x4000#16 = 0#16 := by
    apply BitVec.eq_of_getLsbD_eq
    intro i hi
    rw [BitVec.getLsbD_and, getLsbD_bit14 i hi]
    obtain rfl | h14 := eq_or_ne i 14
    · rw [h]
      rfl
    · simp [h14]
  have hsum : v ^^^ 0x4000#16 = v + 0x4000#16 := by
    rw [BitVec.add_eq_or_of_and_eq_zero _ _ hdisjoint]
    apply BitVec.eq_of_getLsbD_eq
    intro i hi
    rw [BitVec.getLsbD_xor, BitVec.getLsbD_or, getLsbD_bit14 i hi]
    obtain rfl | h14 := eq_or_ne i 14
    · rw [h]
      rfl
    · simp [h14]
  have hlow : ¬16384 ≤ v.toNat % 32768 := by
    rw [getLsbD_14] at h
    exact of_decide_eq_false h
  have hv := v.isLt
  rw [hsum, BitVec.toNat_add, BitVec.toNat_ofNat]
  omega

/-- The corrected word is the word with its clear bit 14 set (R85). -/
theorem val16_correct_of_negative (h : ovf v = .negative) : val16 (correct v) = val16 v + 16384 := by
  obtain ⟨h15, h14⟩ := ovf_eq_negative_iff.mp h
  have hword := toNat_xor_bit14 h14
  rw [getLsbD_15] at h15
  have hhigh := of_decide_eq_true h15
  rw [correct_of_ovf_ne_none (by simp [h]), val16_eq, val16_eq, hword, if_pos (by omega), if_pos hhigh]
  omega

/-- The corrected word has bit 14 clear, and setting it gives the word back (R85). -/
theorem val16_correct_of_positive (h : ovf v = .positive) : val16 (correct v) = val16 v - 16384 := by
  obtain ⟨h15, h14⟩ := ovf_eq_positive_iff.mp h
  have hclear : (v ^^^ 0x4000#16).getLsbD 14 = false := by
    rw [BitVec.getLsbD_xor, h14]
    rfl
  have hword := toNat_xor_bit14 hclear
  rw [BitVec.xor_assoc, BitVec.xor_self, BitVec.xor_zero] at hword
  rw [getLsbD_15] at h15
  have hlow := of_decide_eq_false h15
  rw [correct_of_ovf_ne_none (by simp [h]), val16_eq, val16_eq, if_neg (by omega), if_neg hlow]
  omega

/-- Settles O8: the verdicts by the two top bits, and the correction as a change of bit 14. -/
theorem overflowVerdictsAndCorrection : Obligations.OverflowVerdictsAndCorrection := by
  intro v
  have hnone := (ovf_eq_none_iff v).trans (canonical_iff v)
  refine ⟨fun h => ?_, fun h15 h14 => ?_, fun h15 h14 => ?_, canonical_correct v, fun h => ?_, correct_of_ovf_ne_none,
    val16_correct_of_positive, val16_correct_of_negative⟩
  · rw [hnone.mpr h]
    exact ⟨rfl, rfl⟩
  · rw [ovf_eq_positive_iff.mpr ⟨h15, h14⟩]
    exact ⟨rfl, rfl⟩
  · rw [ovf_eq_negative_iff.mpr ⟨h15, h14⟩]
    exact ⟨rfl, rfl⟩
  · exact correct_of_canonical ((ovf_eq_none_iff v).mp h)

/-! ### Conversions -/

theorem toSigned_range (v : Word) : -16383 ≤ toSigned v ∧ toSigned v ≤ 16383 := by
  rw [toSigned_eq]
  split <;> omega

/-- R89 for an integer that is not negative. -/
theorem fromSigned16_of_nonneg {n : Int} (h0 : 0 ≤ n) (h : n ≤ 16383) :
    fromSigned16 n = some (BitVec.ofNat 16 n.toNat) := by
  rw [fromSigned16, if_neg (by omega), if_pos h0]

/-- R89 for a negative integer. -/
theorem fromSigned16_of_neg {n : Int} (h0 : n < 0) (h : -16383 ≤ n) :
    fromSigned16 n = some (~~~(BitVec.ofNat 16 (-n).toNat)) := by
  rw [fromSigned16, if_neg (by omega), if_neg (by omega)]

/-- A canonical word but -0 is the word of its integer (R83, R89). -/
theorem fromSigned16_val16 (hv : canonical v = true) (hne : v ≠ 0xFFFF#16) : fromSigned16 (val16 v) = some v := by
  obtain ⟨hlow, hhigh⟩ := toSigned_range v
  rw [← val16_of_canonical hv] at hlow hhigh
  cases h15 : v.getLsbD 15 with
  | true =>
    have hval : val16 v = -((~~~v).toNat : Int) := if_pos h15
    have hneg : val16 v < 0 := by
      have hsum := toNat_add_toNat_not v
      have hword : v.toNat ≠ 0xFFFF := fun h => hne (BitVec.eq_of_toNat_eq h)
      omega
    rw [fromSigned16_of_neg hneg hlow, hval, Int.neg_neg, Int.toNat_natCast, BitVec.ofNat_toNat, BitVec.setWidth_eq,
      BitVec.not_not]
  | false =>
    have hval : val16 v = (v.toNat : Int) := if_neg (ne_true_of_eq_false h15)
    rw [fromSigned16_of_nonneg (by omega) hhigh, hval, Int.toNat_natCast, BitVec.ofNat_toNat, BitVec.setWidth_eq]

theorem low15_sext16 (v : Word) : low15 (sext16 v) = low15 v := low15_extend15 _

/-- Bit 15 is ignored, so the integer is that of the sign-extended word (R86, R88). -/
theorem toSigned_eq_val16_sext16 (v : Word) : toSigned v = val16 (sext16 v) := by
  rw [val16_of_canonical (canonical_sext16 v), toSigned, toSigned, low15_sext16]

/-- Opposite integers have complementary words (R89). -/
theorem fromSigned16_neg_of_pos {n : Int} (h0 : 0 < n) (h : n ≤ 16383) :
    ∃ x : Word, fromSigned16 n = some x ∧ fromSigned16 (-n) = some (~~~x) :=
  ⟨_, fromSigned16_of_nonneg h0.le h, by rw [fromSigned16_of_neg (by omega) (by omega), Int.neg_neg]⟩

/-- Settles O9: an integer comes back to the canonical word it was read from, but for -0. -/
theorem signedConversions : Obligations.SignedConversions := by
  refine ⟨toSigned_range, fun v hv => ?_, fun v hv => ?_, fun n h0 hlow hhigh => ?_⟩
  · rw [toSigned_eq_val16_sext16]
    refine fromSigned16_val16 (canonical_sext16 v) fun hminus => hv ?_
    rw [← low15, ← low15_sext16, hminus]
    rfl
  · rw [toSigned, low15, hv]
    rfl
  · rcases lt_or_gt_of_ne h0 with hneg | hpos
    · obtain ⟨x, hx, hnx⟩ := fromSigned16_neg_of_pos (n := -n) (by omega) (by omega)
      rw [Int.neg_neg] at hnx
      exact ⟨~~~x, hnx, by rw [BitVec.not_not, hx]⟩
    · exact fromSigned16_neg_of_pos hpos hhigh

/-! ### Corrected stores -/

theorem storeCorrected_of_wide (hw : wide s.cfg a = true) (v : Word) : storeCorrected s v a = memWrite s a v := by
  rw [storeCorrected, storedForm, if_pos hw]

theorem storeCorrected_of_narrow (hw : wide s.cfg a = false) (v : Word) :
    storeCorrected s v a = memWrite s a (correct v) := by
  rw [storeCorrected, storedForm, if_neg (ne_true_of_eq_false hw)]

/-- The wide locations are A and the other member of WIDE_REGS (R20). -/
theorem wide_cases {c : Config} (hw : wide c a = true) :
    a = 0#12 ∨ (a = 1#12 ∧ c.wideRegs = .accL) ∨ (a = 2#12 ∧ c.wideRegs = .accQ) := by
  unfold wide at hw
  cases hr : c.wideRegs <;> simpa [hr] using hw

/-- A wide location keeps all 16 bits (R20, R34). -/
theorem read_of_write_wide (hw : wide s.cfg a = true) (v : Word) :
    ∃ t, memWrite s a v = .ok t ∧ memRead t a = .ok v := by
  rcases wide_cases hw with rfl | ⟨rfl, hr⟩ | ⟨rfl, hr⟩
  · exact ⟨s.setA v, rfl, rfl⟩
  · exact ⟨s.setL v, by rw [← lAddr, write_l, if_pos hr], rfl⟩
  · exact ⟨s.setQ v, by rw [← qAddr, write_q, if_pos hr], rfl⟩

/-- A raw value stored at a wide location reads back in accumulator form (R36, R87). -/
theorem read16_of_storeCorrected_wide (hw : wide s.cfg a = true) (v : Word) :
    ∃ t, storeCorrected s v a = .ok t ∧ read16 t a = .ok v := by
  obtain ⟨t, ht, hread⟩ := read_of_write_wide hw v
  obtain ⟨hcfg, _⟩ := write_flags ht
  exact ⟨t, (storeCorrected_of_wide hw v).trans ht, read16_of_wide (hcfg ▸ hw) hread⟩

/-- The corrected value is in 15-bit form, so that neither the write nor the read changes it (R35, R36, R87). -/
theorem read16_of_storeCorrected_erasable (hc : s.cfg.legal = true) (hm : s.mem.wf = true) (ha : ErasableAt s.cfg a)
    (v : Word) : ∃ t, storeCorrected s v a = .ok t ∧ read16 t a = .ok (correct v) := by
  obtain ⟨hfirst, _⟩ := legal_iff.mp hc
  have hnarrow : wide s.cfg a = false := wide_of_two_lt (by omega)
  obtain ⟨t, ht⟩ := storeCorrected_writable hc (.inr ha) v
  have hread := read_of_write_erasable hc hm (storeCorrected_of_narrow hnarrow v ▸ ht) ha
  rw [narrow_of_canonical (canonical_correct v)] at hread
  exact ⟨t, ht, read16_of_canonical (canonical_correct v) hread⟩

/-- Settles O17, by what a wide location and an erasable cell read after the write. -/
theorem correctedStoreReadsBack : Obligations.CorrectedStoreReadsBack := fun _ v _ hc hm =>
  ⟨fun hw => ⟨storeCorrected_of_wide hw v, read16_of_storeCorrected_wide hw v⟩,
    fun hw => storeCorrected_of_narrow hw v, fun ha => read16_of_storeCorrected_erasable hc hm ha v⟩

end Sys2Proof.Machine
end

section
/-! PROOFS. The cycle statements: the two bias adders, the fetch and what it runs, the flags after a completed cycle,
and the two instructions that act on the next word. -/

namespace Sys2Proof.Machine

open Sys2Proof.Claims

variable {s t : State} {i : Instr} {e : EField} {k : Addr} {v raw x y : Word} {c : Config}

/-! ### The bias adders -/

theorem biasAdd_of_modifiedAdd (h : c.indexAdd = .modifiedAdd) (raw bias : Word) :
    biasAdd c raw bias = add raw bias := by
  rw [biasAdd, h]

theorem biasAdd_of_binary16 (h : c.indexAdd = .binary16) (raw bias : Word) : biasAdd c raw bias = raw + bias := by
  rw [biasAdd, h]

/-- Without a carry out of bit 15 the modified add is the binary sum (R81). -/
theorem add_of_no_carry (h : x.toNat + y.toNat < 0x10000) : add x y = x + y := by
  apply BitVec.eq_of_toNat_eq
  rw [add_toNat, if_neg (by omega), BitVec.toNat_add, Nat.mod_eq_of_lt h]

/-- A carry out of bit 15 comes back as 1 (R81). -/
theorem add_of_carry (h : 0x10000 ≤ x.toNat + y.toNat) : add x y = x + y + 1#16 := by
  have hx := x.isLt
  have hy := y.isLt
  apply BitVec.eq_of_toNat_eq
  rw [add_toNat, if_pos h, BitVec.toNat_add, BitVec.toNat_add, BitVec.toNat_ofNat]
  omega

/-- Adding 1 never leaves a word as it is, so the carry alone decides (R99). -/
theorem add_eq_binary_iff : add x y = x + y ↔ x.toNat + y.toNat < 0x10000 := by
  refine ⟨fun h => ?_, add_of_no_carry⟩
  by_contra hcarry
  rw [add_of_carry (by omega), add_eq_left] at h
  exact absurd h (by decide)

/-- Settles O11: the modified add differs from the binary sum by the carry that comes back. -/
theorem biasAdders : Obligations.BiasAdders := by
  refine ⟨fun c d raw bias hc hd => ?_, biasAdd_zero⟩
  rw [biasAdd_of_modifiedAdd hc, biasAdd_of_binary16 hd]
  exact ⟨add_eq_binary_iff, add_of_carry⟩

/-! ### The fetch -/

theorem fetch_of_read16 (h : read16 s s.z = .ok raw) :
    fetch s = .ok ((biasAdd s.cfg raw s.bias).setWidth 15) := by
  simp only [fetch, h, low15]

theorem fetch_of_read16_error {f : AccessFault} (h : read16 s s.z = .error f) : fetch s = .error f := by
  simp only [fetch, h]

/-- A cycle that reads the word at Z runs what that word, biased, decodes to (R97). -/
theorem step_of_read16 (hf : s.fault = none) (h : read16 s s.z = .ok raw) :
    step s = exec (decode s.ext ((biasAdd s.cfg raw s.bias).setWidth 15)) { s with bias := 0#16 } :=
  step_of_fetch hf (fetch_of_read16 h)

/-- Without a bias the word at Z is decoded as it stands (R99). -/
theorem step_of_read16_of_bias_zero (hf : s.fault = none) (hbias : s.bias = 0#16) (h : read16 s s.z = .ok raw) :
    step s = exec (decode s.ext (raw.setWidth 15)) s := by
  have hs : { s with bias := 0#16 } = s := by rw [← hbias]
  rw [step_of_read16 hf h, hs, hbias, biasAdd_zero]

/-- Settles O18, by what the fetch reads. -/
theorem stepRunsTheDecodedInstruction : Obligations.StepRunsTheDecodedInstruction := by
  rintro s raw _ hf hread rfl
  exact step_of_read16 hf hread

/-- Settles O19: Read16 answers at a readable Z and faults at every other one, by the region of Z. -/
theorem fetchReadsOrFaults : Obligations.FetchReadsOrFaults := by
  intro s hf hc
  refine ⟨fun hz => ?_, fun hz => step_of_fetch_error hf (fetch_of_read16_error (read16_reserved hz)),
    fun hz => step_of_fetch_error hf (fetch_of_read16_error (read16_noBank hc hz))⟩
  obtain ⟨raw, hread⟩ := read16_readable hc hz
  exact ⟨raw, hread, step_of_read16 hf hread⟩

/-! ### BIAS and EXT after a completed cycle -/

/-- A fault leaves its record, so a meaning that leaves none has completed (R102, R161). -/
theorem exec_keeps_of_completed {P : State → Prop} (hP : Closed P) (h0 : P s.beginExec)
    (hIe : ∀ {u}, P u → ∀ v, P (u.setIe v))
    (hBias : ((∃ e, i = .index e) ∨ ∃ k, i = .indexK k) → ∀ {u}, P u → ∀ v, P (u.setBias v))
    (hExt : (i = .extend ∨ ∃ k, i = .indexK k) → ∀ {u}, P u → ∀ v, P (u.setExt v))
    (h : exec i s = .next t) (ht : t.fault = none) : P t := by
  rcases exec_cases hP (FaultsIn.trivial P) h0 (fun _ => hIe) hBias hExt h with h | ⟨_, _, _, _, rfl⟩ | ⟨_, rfl⟩
  · exact h
  · cases ht
  · cases ht

theorem closed_bias (x : Word) : Closed fun u => u.bias = x where
  setA h _ := h
  setZ h _ := h
  write h hw := by
    obtain ⟨_, _, hbias, _⟩ := write_flags hw
    exact hbias.trans h

theorem closed_ext (x : Bool) : Closed fun u => u.ext = x where
  setA h _ := h
  setZ h _ := h
  write h hw := by
    obtain ⟨_, hext, _⟩ := write_flags hw
    exact hext.trans h

/-- Only INDEX leaves a bias (R101). -/
theorem exec_bias_of_not_index (h : exec i s = .next t) (ht : t.fault = none)
    (hi : ¬((∃ e, i = .index e) ∨ ∃ k, i = .indexK k)) : t.bias = 0#16 :=
  exec_keeps_of_completed (closed_bias 0#16) rfl (fun h _ => h) (fun hor => (hi hor).elim) (fun _ _ h _ => h) h ht

/-- Only EXTEND and the extended INDEX leave EXT set (R101). -/
theorem exec_ext_of_not_extending (h : exec i s = .next t) (ht : t.fault = none)
    (hi : ¬(i = .extend ∨ ∃ k, i = .indexK k)) : t.ext = false :=
  exec_keeps_of_completed (closed_ext false) rfl (fun h _ => h) (fun _ _ h _ => h) (fun hor => (hi hor).elim) h ht

theorem exec_extend (s : State) : exec .extend s = .next { began s with ext := true } := rfl

theorem exec_index (h : read16 (began s) (eAddr e) = .ok v) :
    exec (.index e) s = .next { began s with bias := v } := by
  simp only [exec, execIndex]
  exact runHandler_done (onRead16_ok h _)

theorem exec_indexK (h : read16 (began s) k = .ok v) :
    exec (.indexK k) s = .next { began s with bias := v, ext := true } := by
  simp only [exec, execIndexK]
  exact runHandler_done (onRead16_ok h _)

theorem exec_indexK_error {f : AccessFault} (h : read16 (began s) k = .error f) :
    exec (.indexK k) s = .next ((began s).takeFault (handlerRecord (.indexK k) s f)) := by
  simp only [exec, execIndexK]
  exact runHandler_raised (onRead16_error h _)

/-- EXTEND and a completed extended INDEX set EXT (R153, R156). -/
theorem exec_ext_of_extending (h : exec i s = .next t) (ht : t.fault = none)
    (hi : i = .extend ∨ ∃ k, i = .indexK k) : t.ext = true := by
  rcases hi with rfl | ⟨k, rfl⟩
  · rw [exec_extend] at h
    cases h
    rfl
  · cases hread : read16 (began s) k with
    | ok v =>
      rw [exec_indexK hread] at h
      cases h
      rfl
    | error f =>
      rw [exec_indexK_error hread] at h
      cases h
      cases ht

/-- Settles O22: the cycle runs the decoded instruction from a state with BIAS and EXT cleared, and these are the only
instructions that write them. -/
theorem flagsAfterACycle : Obligations.FlagsAfterACycle := by
  intro s t w hf hw h ht
  rw [step_of_fetch hf hw] at h
  refine ⟨not_imp_comm.mp (exec_bias_of_not_index h ht), fun hext => ?_, exec_ext_of_extending h ht⟩
  by_contra hi
  exact Bool.false_ne_true ((exec_ext_of_not_extending h ht hi).symm.trans hext)

/-! ### Acting on the next word -/

/-- Settles O23: EXTEND leaves EXT set and no bias, and the next cycle decodes by that EXT. -/
theorem extendActsOnTheNextWord : Obligations.ExtendActsOnTheNextWord := by
  intro s t w raw hf hw hd h hread
  rw [step_of_fetch hf hw, hd, exec_extend] at h
  cases h
  exact ⟨rfl, step_of_read16_of_bias_zero (s := { began s with ext := true }) hf rfl hread⟩

/-- The state either INDEX leaves, but for the values of BIAS and EXT, biases the next word once (R104). -/
theorem biasesNext_of_began {ext : Bool} (hf : s.fault = none) (ht : t = { began s with bias := v, ext := ext })
    (hread : read16 t t.z = .ok raw) : BiasesNext s t ext v raw := by
  subst ht
  have hstep := step_of_read16 (s := { began s with bias := v, ext := ext }) hf hread
  refine ⟨rfl, rfl, rfl, hstep, fun u hu hfu he hk => ?_⟩
  rw [hstep] at hu
  exact exec_bias_of_not_index hu hfu fun hi => hi.elim (fun ⟨e, hi⟩ => he e hi) fun ⟨k, hi⟩ => hk k hi

/-- Settles O24: each form leaves its operand in BIAS, the extended one EXT as well, and the next cycle uses both. -/
theorem indexBiasesOnce : Obligations.IndexBiasesOnce := by
  intro s t w v raw hf hw h hread
  rw [step_of_fetch hf hw] at h
  refine ⟨fun e hd hv => ?_, fun k hd hv => ?_⟩
  · rw [hd, exec_index (s := s.setBias 0#16) hv] at h
    cases h
    exact biasesNext_of_began hf rfl hread
  · rw [hd, exec_indexK (s := s.setBias 0#16) hv] at h
    cases h
    exact biasesNext_of_began hf rfl hread

end Sys2Proof.Machine
end

section
/-! PROOFS. The arithmetic statements: what AD, SU, MSU, MASK and MP put into A, what ADS, INCR, AUG, DIM and DAS store,
where each of them stops, and the control transfer of a write to Z. -/

namespace Sys2Proof.Machine

open Sys2Proof.Claims

variable {s t u : State} {i : Instr} {e : EField} {a k low : Addr} {v m x y : Word} {c : Config}
  {body : State → Handled}

/-! ### Where a handler stops -/

/-- The fault of a handler leaves the state it faulted in, with the record (R102, R161). -/
theorem exec_faulted {f : AccessFault} (hi : exec i s = runHandler i s body) (hb : body (began s) = .raised f t) :
    exec i s = .next (faulted t i s.z f.code f.addr) :=
  hi.trans (runHandler_raised hb)

/-- A handler that stops where its first operand cannot be read stops at a reserved operand (R163). -/
theorem stopsAtReserved_of_read16 (hi : exec i s = runHandler i s body)
    (hb : ∀ f, read16 (began s) a = .error f → body (began s) = .raised f (began s)) : StopsAtReserved i a s :=
  fun ha => exec_faulted hi (hb _ (read16_reserved ha))

/-- A handler that stops where its first operand cannot be read stops at a reserved operand and outside the bank
(R163, R168). -/
theorem stopsAtOperand_of_read16 (hc : s.cfg.legal = true) (hi : exec i s = runHandler i s body)
    (hb : ∀ f, read16 (began s) a = .error f → body (began s) = .raised f (began s)) : StopsAtOperand i a s :=
  ⟨stopsAtReserved_of_read16 hi hb, fun ha => exec_faulted hi (hb _ (read16_noBank hc ha))⟩

/-! ### Operations into A -/

/-- The handler that AD, SU, MSU and MASK share: A takes a function of the state and the operand. -/
def intoA (a : Addr) (f : State → Word → Word) (t : State) : Handled := onRead16 t a fun m => .done (t.setA (f t m))

theorem intoA_of_error {f : State → Word → Word} {g : AccessFault} (h : read16 t a = .error g) :
    intoA a f t = .raised g t := onRead16_error h _

/-- At a readable operand the handler completes, and only A has changed since it began. -/
theorem exec_intoA {f : State → Word → Word} (hc : s.cfg.legal = true) (hi : exec i s = runHandler i s (intoA a f))
    (ha : Readable s.cfg a) :
    ∃ m, read16 (began s) a = .ok m ∧ exec i s = .next { began s with a := f (began s) m } := by
  obtain ⟨m, hm⟩ := read16_readable (s := began s) hc ha
  exact ⟨m, hm, hi.trans (runHandler_done (onRead16_ok hm _))⟩

theorem exec_ad (k : Addr) (s : State) : exec (.ad k) s = runHandler (.ad k) s (intoA k fun t m => add t.a m) := rfl

theorem exec_su_admitted (h : s.cfg.admitUndescribed = true) :
    exec (.su e) s = runHandler (.su e) s (intoA (eAddr e) fun t m => add t.a (~~~m)) := gated_admitted h

theorem exec_msu (e : EField) (s : State) :
    exec (.msu e) s = runHandler (.msu e) s (intoA (eAddr e) fun t m => msuResult t.cfg t.a m) := rfl

theorem exec_mask (k : Addr) (s : State) :
    exec (.mask k) s = runHandler (.mask k) s (intoA k fun t m => masked t.cfg k t.a m) := rfl

/-- Settles O33: AD is a handler into A, and its one access is the operand's. -/
theorem adAdds : Obligations.AdAdds := fun s k hc =>
  ⟨decodeOfEncode (.ad k) rfl, exec_intoA hc (exec_ad k s),
    stopsAtOperand_of_read16 hc (exec_ad k s) fun _ => intoA_of_error⟩

/-- Settles O34, by the gate: an admitted SU is a handler into A. -/
theorem suSubtracts : Obligations.SuSubtracts := by
  intro s e hc
  refine ⟨decodeOfEncode (.su e) rfl, fun hadm => ?_, gated_notImplemented⟩
  have hi := exec_su_admitted (e := e) hadm
  exact ⟨exec_intoA hc hi, stopsAtReserved_of_read16 hi fun _ => intoA_of_error⟩

theorem masked_of_wide (hw : wide c k = true) (x m : Word) : masked c k x m = x &&& m := if_pos hw

/-- The AND of the low 15 bits is the low part of the AND, so that either is sign-extended alike (R124). -/
theorem masked_of_narrow (hw : wide c k = false) (x m : Word) : masked c k x m = sext16 (correct x &&& m) := by
  rw [masked, if_neg (ne_true_of_eq_false hw), sext16, BitVec.setWidth_and]
  rfl

/-- Settles O42, by the two forms of the AND. -/
theorem maskAnds : Obligations.MaskAnds := by
  intro s k hc
  refine ⟨decodeOfEncode (.mask k) rfl, fun hk => ?_,
    stopsAtOperand_of_read16 hc (exec_mask k s) fun _ => intoA_of_error⟩
  obtain ⟨m, hm, hexec⟩ := exec_intoA hc (exec_mask k s) hk
  refine ⟨m, hm, fun hw => ?_, fun hw => ?_⟩
  · have hA : masked (began s).cfg k (began s).a m = s.a &&& m := masked_of_wide hw s.a m
    rw [hexec, hA]
  · have hA : masked (began s).cfg k (began s).a m = sext16 (correct s.a &&& m) := masked_of_narrow hw s.a m
    rw [hexec, hA]

/-! ### MSU -/

theorem msuResult_of_other (h : c.msuFn = .other) (x m : Word) : msuResult c x m = Config.msuOther x m := by
  rw [msuResult, h]

theorem msuResult_of_reference (h : c.msuFn = .reference) (x m : Word) : msuResult c x m = msuReference x m := by
  rw [msuResult, h]

/-- The difference of R118 modulo 0x8000. -/
def msuDifference (x m : Word) : Nat := (m.toNat % 0x8000 + 0x8000 - (correct x).toNat % 0x8000) % 0x8000

theorem toNat_low15_sub (x m : Word) : (low15 m - low15 (correct x)).toNat = msuDifference x m := by
  rw [BitVec.toNat_sub, low15_toNat, low15_toNat, msuDifference]
  omega

/-- The low 15 bits of an MSU are the difference, less one when its bit 14 is set (R118). -/
theorem msuReference_toNat (x m : Word) :
    (msuReference x m).toNat % 0x8000 =
      if msuDifference x m < 0x4000 then msuDifference x m else msuDifference x m - 1 := by
  have hd := toNat_low15_sub x m
  have hlt := (low15 m - low15 (correct x)).isLt
  have hbit : (low15 m - low15 (correct x)).getLsbD 14 = decide (0x4000 ≤ msuDifference x m) := by
    rw [BitVec.getLsbD, hd, Nat.testBit_eq_decide_div_mod_eq]
    congr 1
    apply propext
    omega
  rw [← low15_toNat, msuReference, low15_extend15, hbit]
  by_cases h : msuDifference x m < 0x4000
  · rw [if_pos h, decide_eq_false (Nat.not_le.mpr h), if_neg Bool.false_ne_true, hd]
  · rw [if_neg h, decide_eq_true (Nat.le_of_not_lt h), if_pos rfl, BitVec.toNat_sub, hd, BitVec.toNat_ofNat]
    omega

/-- Settles O39: A takes the value of msuFn, and the decided one is the difference in one's complement. -/
theorem msuSubtractsModularly : Obligations.MsuSubtractsModularly := by
  intro s e hc
  refine ⟨decodeOfEncode (.msu e) rfl, fun he => ?_,
    stopsAtReserved_of_read16 (exec_msu e s) fun _ => intoA_of_error⟩
  obtain ⟨m, hm, hexec⟩ := exec_intoA hc (exec_msu e s) he
  refine ⟨m, _, hm, hexec, fun h => msuResult_of_other h s.a m, fun h => ?_⟩
  have hA : msuResult (began s).cfg (began s).a m = msuReference s.a m := msuResult_of_reference h s.a m
  have hlow := msuReference_toNat s.a m
  rw [hA]
  exact ⟨canonical_extend15 _, fun hlt => hlow.trans (if_pos hlt),
    fun hge => hlow.trans (if_neg (Nat.not_lt.mpr hge))⟩

/-! ### MP -/

/-- The 15-bit one's-complement word of a sign and a magnitude, the form MP gives both halves (R119). -/
def signedWord (negative : Bool) (n : Nat) : Word15 :=
  if negative then ~~~(BitVec.ofNat 15 n) else BitVec.ofNat 15 n

theorem signedWord_toNat {n : Nat} (hn : n < 16384) (negative : Bool) :
    (signedWord negative n).toNat = if negative then 32767 - n else n := by
  have hword : (BitVec.ofNat 15 n).toNat = n := Nat.mod_eq_of_lt (by omega)
  cases negative
  · exact hword
  · exact (BitVec.toNat_not ..).trans (by rw [hword]; rfl)

theorem toSigned15_signedWord {n : Nat} (hn : n < 16384) (negative : Bool) :
    toSigned15 (signedWord negative n) = if negative then -(n : Int) else n := by
  rw [toSigned15_eq, signedWord_toNat hn]
  cases negative
  · simp [hn]
  · simp
    omega

theorem signedWord_bit14 {n : Nat} (hn : n < 16384) (negative : Bool) :
    (signedWord negative n).getLsbD 14 = negative := by
  rw [BitVec.getLsbD, signedWord_toNat hn, Nat.testBit_eq_decide_div_mod_eq]
  cases negative
  · simp
    omega
  · simp
    omega

theorem mpHigh_eq (x m : Word) :
    mpHigh x m = signedWord (mpNegative x m) ((toSigned x * toSigned m).natAbs / 2 ^ 14 % 2 ^ 14) := rfl

theorem mpLow_eq (x m : Word) :
    mpLow x m = signedWord (mpNegative x m) ((toSigned x * toSigned m).natAbs % 2 ^ 14) := rfl

theorem mpNegative_of_ne (h : toSigned x * toSigned m ≠ 0) :
    mpNegative x m = decide (toSigned x * toSigned m < 0) := if_pos h

theorem mpNegative_iff_of_eq (h : toSigned x * toSigned m = 0) :
    mpNegative x m = true ↔ toSigned x = 0 ∧ x.getLsbD 14 ≠ m.getLsbD 14 := by
  simp [mpNegative, h]

/-- A product of two 15-bit magnitudes has 28 bits (R90). -/
theorem natAbs_product_lt (x m : Word) : (toSigned x * toSigned m).natAbs < 2 ^ 28 := by
  have hx := toSigned_range x
  have hm := toSigned_range m
  calc (toSigned x * toSigned m).natAbs = (toSigned x).natAbs * (toSigned m).natAbs := Int.natAbs_mul ..
    _ ≤ 16383 * 16383 := Nat.mul_le_mul (by omega) (by omega)
    _ < 2 ^ 28 := by decide

/-- The halves carry the product's sign and, weighted, add up to it (R119). -/
theorem mp_halves (h : toSigned x * toSigned m ≠ 0) :
    toSigned15 (mpHigh x m) * 16384 + toSigned15 (mpLow x m) = toSigned x * toSigned m := by
  have hlt := natAbs_product_lt x m
  have hmod (n : Nat) : n % 2 ^ 14 < 16384 := Nat.mod_lt n (by decide)
  rw [mpHigh_eq, mpLow_eq, mpNegative_of_ne h, toSigned15_signedWord (hmod _), toSigned15_signedWord (hmod _)]
  generalize toSigned x * toSigned m = p at hlt
  by_cases hp : p < 0
  · simp only [hp, decide_true, if_true]
    omega
  · simp only [hp, decide_false, Bool.false_eq_true, if_false]
    omega

theorem mpHigh_sign (x m : Word) : (mpHigh x m).getLsbD 14 = mpNegative x m :=
  signedWord_bit14 (Nat.mod_lt _ (by decide)) _

theorem mpLow_sign (x m : Word) : (mpLow x m).getLsbD 14 = mpNegative x m :=
  signedWord_bit14 (Nat.mod_lt _ (by decide)) _

/-- Both halves of a zero product are the zero of its sign (R120). -/
theorem mp_zero (h : toSigned x * toSigned m = 0) :
    mpHigh x m = signedWord (mpNegative x m) 0 ∧ mpLow x m = signedWord (mpNegative x m) 0 := by
  rw [mpHigh_eq, mpLow_eq, h]
  exact ⟨rfl, rfl⟩

/-- With or without the sign extension, A holds the high half in its low 15 bits (R122). -/
theorem low15_mpAccumulator (c : Config) (x m : Word) : low15 (mpAccumulator c x m) = mpHigh x m := by
  unfold mpAccumulator
  split
  · exact low15_extend15 _
  · exact BitVec.setWidth_setWidth_of_le _ (by decide)

theorem low15_bit14 (v : Word) : (low15 v).getLsbD 14 = v.getLsbD 14 := by
  rw [low15, BitVec.getLsbD_setWidth]
  rfl

theorem canonical_mpAccumulator (h : c.mpHighSext = true) (x m : Word) : canonical (mpAccumulator c x m) = true := by
  rw [mpAccumulator, if_pos h]
  exact canonical_extend15 _

theorem mpAccumulator_bit15 (h : c.mpHighSext = false) (x m : Word) : (mpAccumulator c x m).getLsbD 15 = false := by
  rw [mpAccumulator, if_neg (ne_true_of_eq_false h), BitVec.getLsbD_setWidth, BitVec.getLsbD_of_ge _ _ (by decide),
    Bool.and_false]

theorem mpAccumulator_of_high_zero (h : mpHigh x m = 0#15) (c : Config) : mpAccumulator c x m = 0#16 := by
  rw [mpAccumulator, h]
  split <;> rfl

/-- The handler of MP: L takes the low half, A the high one (R119). -/
def mpHandler (k : Addr) (t : State) : Handled :=
  onRead16 t k fun m =>
    onWrite t lAddr (extend15 (mpLow (correct t.a) m)) fun u => .done (u.setA (mpAccumulator t.cfg (correct t.a) m))

theorem exec_mp (k : Addr) (s : State) : exec (.mp k) s = runHandler (.mp k) s (mpHandler k) := rfl

/-- A canonical word goes into L unchanged, be L wide or narrow (R20, R35). -/
theorem write_l_of_canonical (hv : canonical v = true) (s : State) : memWrite s lAddr v = .ok (s.setL v) := by
  rw [write_l, narrow_of_canonical hv, ite_self]

theorem mpHandler_of_read16 (h : read16 t k = .ok m) :
    mpHandler k t = .done
      { t with a := mpAccumulator t.cfg (correct t.a) m, l := extend15 (mpLow (correct t.a) m) } :=
  (onRead16_ok h _).trans (onWrite_ok (write_l_of_canonical (canonical_extend15 _) t) _)

/-- Settles O40: L takes the low half sign-extended and A the high half, whose signs and values are those of the
product, or of the zero of R120. -/
theorem mpMultiplies : Obligations.MpMultiplies := by
  intro s k hc
  refine ⟨decodeOfEncode (.mp k) rfl, fun hk => ?_,
    stopsAtOperand_of_read16 hc (exec_mp k s) fun _ h => onRead16_error h _⟩
  obtain ⟨m, hm⟩ := read16_readable (s := began s) hc hk
  have hhigh := low15_mpAccumulator s.cfg (correct s.a) m
  have hlow := low15_extend15 (mpLow (correct s.a) m)
  refine ⟨m, _, _, hm, (exec_mp k s).trans (runHandler_done (mpHandler_of_read16 hm)), canonical_extend15 _,
    fun h => canonical_mpAccumulator h _ _, fun h => mpAccumulator_bit15 h _ _, fun hp => ?_, fun hp => ?_⟩
  · rw [← mpNegative_of_ne hp]
    refine ⟨?_, ?_, ?_⟩
    · exact (congrArg₂ (toSigned15 · * 16384 + toSigned15 ·) hhigh hlow).trans (mp_halves hp)
    · exact (low15_bit14 _).symm.trans (hhigh ▸ mpHigh_sign _ _)
    · exact (low15_bit14 _).symm.trans (hlow.symm ▸ mpLow_sign _ _)
  · obtain ⟨hh, hl⟩ := mp_zero hp
    refine ⟨fun hminus => ?_, fun hplus => ?_⟩
    · rw [(mpNegative_iff_of_eq hp).mpr hminus] at hh hl
      exact ⟨hhigh.trans hh, congrArg extend15 hl⟩
    · rw [eq_false_of_ne_true (mt (mpNegative_iff_of_eq hp).mp hplus)] at hh hl
      exact ⟨mpAccumulator_of_high_zero hh _, congrArg extend15 hl⟩

/-! ### Operations in place -/

/-- The handler that INCR, AUG and DIM share: the operand takes a function of its value through Write. -/
def inPlace (a : Addr) (f : Word → Word) (t : State) : Handled := onRead16 t a fun v => onWrite t a (f v) .done

variable {f : Word → Word}

theorem inPlace_of_error {g : AccessFault} (h : read16 t a = .error g) : inPlace a f t = .raised g t :=
  onRead16_error h _

/-- The zero register is read and then refuses the write (R166). -/
theorem inPlace_seven (t : State) : inPlace 7#12 f t = .raised { code := .writeToZero, addr := 7#12 } t :=
  (onRead16_ok (read16_seven t) _).trans (onWrite_error (write_zero t _) _)

theorem exec_inPlace (hc : s.cfg.legal = true) (hi : exec i s = runHandler i s (inPlace a f))
    (ha : Writable s.cfg a) :
    ∃ v t, read16 (began s) a = .ok v ∧ memWrite (began s) a (f v) = .ok t ∧ exec i s = .next t := by
  obtain ⟨v, hv⟩ := read16_readable (s := began s) hc (readable_of_writable ha)
  obtain ⟨t, ht⟩ := write_writable (s := began s) hc ha (f v)
  exact ⟨v, t, hv, ht, hi.trans (runHandler_done ((onRead16_ok hv _).trans (onWrite_ok ht _)))⟩

/-- The stops of an operation in place (R163, R166). -/
theorem inPlace_stops (hi : exec i s = runHandler i s (inPlace (eAddr e) f)) :
    (e = 7#10 → exec i s = .next (faulted (began s) i s.z .writeToZero 7#12)) ∧ StopsAtReserved i (eAddr e) s := by
  refine ⟨?_, stopsAtReserved_of_read16 hi fun _ => inPlace_of_error⟩
  rintro rfl
  exact exec_faulted hi (inPlace_seven _)

theorem exec_incr (e : EField) (s : State) :
    exec (.incr e) s = runHandler (.incr e) s (inPlace (eAddr e) (add · 0x0001#16)) := rfl

theorem exec_aug (e : EField) (s : State) :
    exec (.aug e) s = runHandler (.aug e) s (inPlace (eAddr e) augmented) := rfl

theorem exec_dim (e : EField) (s : State) :
    exec (.dim e) s = runHandler (.dim e) s (inPlace (eAddr e) diminished) := rfl

/-- Settles O36: INCR is an operation in place. -/
theorem incrAddsOne : Obligations.IncrAddsOne := fun s e hc =>
  ⟨decodeOfEncode (.incr e) rfl, exec_inPlace hc (exec_incr e s), inPlace_stops (exec_incr e s)⟩

theorem augmented_eq (v : Word) :
    augmented v = if v.getLsbD 15 = false then add v 0x0001#16 else add v 0xFFFE#16 := by
  unfold augmented
  cases v.getLsbD 15 <;> rfl

/-- Settles O37, by bit 15 of the value. -/
theorem augMovesFromZero : Obligations.AugMovesFromZero := by
  intro s e hc
  refine ⟨decodeOfEncode (.aug e) rfl, fun he => ?_, inPlace_stops (exec_aug e s)⟩
  obtain ⟨v, t, hv, ht, hexec⟩ := exec_inPlace hc (exec_aug e s) he
  exact ⟨v, t, hv, augmented_eq v ▸ ht, hexec⟩

theorem diminished_zero (h : v = 0x0000#16 ∨ v = 0xFFFF#16) : diminished v = v := if_pos h

/-- A clear bit 15 rules out -0. -/
theorem diminished_of_positive (h0 : v ≠ 0x0000#16) (h15 : v.getLsbD 15 = false) :
    diminished v = add v 0xFFFE#16 := by
  have hminus : v ≠ 0xFFFF#16 := by
    rintro rfl
    cases h15
  rw [diminished, if_neg (not_or.mpr ⟨h0, hminus⟩), if_neg (ne_true_of_eq_false h15)]

/-- A set bit 15 rules out +0. -/
theorem diminished_of_negative (hminus : v ≠ 0xFFFF#16) (h15 : v.getLsbD 15 = true) :
    diminished v = add v 0x0001#16 := by
  have h0 : v ≠ 0x0000#16 := by
    rintro rfl
    cases h15
  rw [diminished, if_neg (not_or.mpr ⟨h0, hminus⟩), if_pos h15]

/-- Settles O38: zero, positive and negative values each by its own clause. -/
theorem dimMovesToZero : Obligations.DimMovesToZero := by
  intro s e hc
  refine ⟨decodeOfEncode (.dim e) rfl, fun he => ?_, inPlace_stops (exec_dim e s)⟩
  obtain ⟨v, t, hv, ht, hexec⟩ := exec_inPlace hc (exec_dim e s) he
  exact ⟨v, _, t, hv, diminished_zero, diminished_of_positive, diminished_of_negative, ht, hexec⟩

/-! ### ADS -/

/-- The handler of ADS: the sum goes into A and, corrected, to the operand's address (R110). -/
def adsHandler (a : Addr) (t : State) : Handled :=
  onRead16 t a fun m => onStoreCorrected (t.setA (add t.a m)) (add t.a m) a .done

theorem exec_ads (e : EField) (s : State) : exec (.ads e) s = runHandler (.ads e) s (adsHandler (eAddr e)) := rfl

/-- Once the operand is read and the sum stored, ADS is complete. -/
theorem exec_ads_of_store (hm : read16 (began s) (eAddr e) = .ok m)
    (ht : storeCorrected { began s with a := add s.a m } (add s.a m) (eAddr e) = .ok t) :
    exec (.ads e) s = .next t :=
  (exec_ads e s).trans (runHandler_done ((onRead16_ok hm _).trans (onStoreCorrected_ok ht _)))

/-- The sum with the hard-wired zero is in A when the store at 7 faults (R102, R110). -/
theorem adsHandler_seven (t : State) :
    adsHandler 7#12 t = .raised { code := .writeToZero, addr := 7#12 } { t with a := add t.a 0#16 } :=
  (onRead16_ok (read16_seven t) _).trans (onStoreCorrected_error (write_zero _ _) _)

/-- Settles O35, by the address stored to: writable, erasable, 7 and reserved. -/
theorem adsAddsToStorage : Obligations.AdsAddsToStorage := by
  intro s e hc
  refine ⟨decodeOfEncode (.ads e) rfl, fun he => ?_, fun he => ?_, ?_,
    stopsAtReserved_of_read16 (exec_ads e s) fun _ h => onRead16_error h _⟩
  · obtain ⟨m, hm⟩ := read16_readable (s := began s) hc (readable_of_writable he)
    obtain ⟨t, ht⟩ := storeCorrected_writable (s := { began s with a := add s.a m }) hc he (add s.a m)
    exact ⟨m, t, hm, ht, exec_ads_of_store hm ht⟩
  · obtain ⟨m, hm⟩ := read16_readable (s := began s) hc (.inr (.inl he))
    have ht := storeCorrected_erasable (s := { began s with a := add s.a m }) hc he (add s.a m)
    rw [eAddr_toNat] at ht
    exact ⟨m, hm, exec_ads_of_store hm ht⟩
  · rintro rfl
    exact exec_faulted (exec_ads 7#10 s) (adsHandler_seven _)

/-! ### DAS -/

/-- The high sum of DAS: the two high words and the overflow of the low sum `lo` (R121). -/
def dasSum (x h lo : Word) : Word := add (add x h) (indicator (ovf lo))

/-- The second half of DAS, with the low sum `lo` stored: the high words and the carry, then A and L (R121). -/
def dasHigh (low : Addr) (lo : Word) (u : State) : Handled :=
  onRead16 u (highAddr low) fun h =>
    onStoreCorrected u (dasSum u.a h lo) (highAddr low) fun v =>
      onWrite (v.setA (indicator (ovf (dasSum u.a h lo)))) lAddr 0#16 .done

/-- The handler of DAS (R121). -/
def dasHandler (low : Addr) (t : State) : Handled :=
  onPair t low <|
    onRead16 t lAddr fun l => onRead16 t low fun m => onStoreCorrected t (add l m) low (dasHigh low (add l m))

theorem exec_das (e : EField) (s : State) : exec (.das e) s = runHandler (.das e) s (dasHandler (eAddr e)) := rfl

/-- L is always readable (R33). -/
theorem read16_l (t : State) : ∃ l, read16 t lAddr = .ok l := ⟨_, read16_of_read (v := t.l) rfl⟩

theorem eAddr_ne_zero (h : e ≠ 0#10) : eAddr e ≠ 0#12 := by
  intro h0
  have hnat := congrArg BitVec.toNat h0
  rw [eAddr_toNat] at hnat
  exact h (BitVec.eq_of_toNat_eq hnat)

variable {l h lo : Word}

/-- With both low words read, DAS stores their sum and goes on to the high words. -/
theorem dasHandler_of_operands (h0 : low ≠ 0#12) (hl : read16 t lAddr = .ok l) (hm : read16 t low = .ok m) :
    dasHandler low t = onStoreCorrected t (add l m) low (dasHigh low (add l m)) :=
  (onPair_of_ne h0 _).trans ((onRead16_ok hl _).trans (onRead16_ok hm _))

theorem dasHandler_of_error {f : AccessFault} (h0 : low ≠ 0#12) (hm : read16 t low = .error f) :
    dasHandler low t = .raised f t := by
  obtain ⟨l, hl⟩ := read16_l t
  exact (onPair_of_ne h0 _).trans ((onRead16_ok hl _).trans (onRead16_error hm _))

theorem dasHandler_zero (t : State) : dasHandler 0#12 t = .raised { code := .addressUnderflow, addr := 0#12 } t := rfl

theorem dasHandler_seven (t : State) : dasHandler 7#12 t = .raised { code := .writeToZero, addr := 7#12 } t := by
  obtain ⟨l, hl⟩ := read16_l t
  exact (dasHandler_of_operands (by decide) hl (read16_seven t)).trans (onStoreCorrected_error (write_zero _ _) _)

/-- With the high sum stored, A takes its indicator and L +0. -/
theorem dasHigh_of_store (hh : read16 u (highAddr low) = .ok h)
    (hv : storeCorrected u (dasSum u.a h lo) (highAddr low) = .ok t) :
    dasHigh low lo u =
      .done { t with a := indicator (ovf (dasSum u.a h lo)), l := 0x0000#16 } :=
  (onRead16_ok hh _).trans ((onStoreCorrected_ok hv _).trans (onWrite_ok (write_l_of_canonical rfl _) _))

/-- A reserved high address stops DAS after the low word is stored. -/
theorem dasHigh_reserved (ha : ReservedAt u.cfg (highAddr low)) :
    dasHigh low lo u = .raised { code := .reservedAddress, addr := highAddr low } u :=
  onRead16_error (read16_reserved ha) _

/-- A reserved operand is no pair that starts at 0. -/
theorem dasHandler_stops (hi : exec i s = runHandler i s (dasHandler low)) : StopsAtReserved i low s := by
  intro ha
  have h0 : low ≠ 0#12 := by
    rintro rfl
    exact absurd ha.1 (by decide)
  exact stopsAtReserved_of_read16 hi (fun _ => dasHandler_of_error h0) ha

/-- Settles O41, by the two addresses of the pair: both writable, field 0, field 7, a reserved high word below an
erasable low one, and a reserved low word. -/
theorem dasAddsDouble : Obligations.DasAddsDouble := by
  intro s e hc
  obtain ⟨l, hl⟩ := read16_l (began s)
  refine ⟨decodeOfEncode (.das e) rfl, fun h0 he hhigh => ?_, ?_, ?_, fun hhigh he => ?_,
    dasHandler_stops (exec_das e s)⟩
  · obtain ⟨m, hm⟩ := read16_readable (s := began s) hc (readable_of_writable he)
    obtain ⟨u, hu⟩ := storeCorrected_writable (s := began s) hc he (add l m)
    obtain ⟨hcfg, _⟩ := write_flags hu
    have hcu : u.cfg = s.cfg := hcfg
    obtain ⟨h, hh⟩ := read16_readable (s := u) (hcu ▸ hc) (hcu ▸ readable_of_writable hhigh)
    obtain ⟨v, hv⟩ := storeCorrected_writable (s := u) (hcu ▸ hc) (hcu ▸ hhigh)
      (dasSum u.a h (add l m))
    refine ⟨l, m, h, _, _, u, v, hl, hm, rfl, hu, hh, rfl, hv, (exec_das e s).trans (runHandler_done ?_)⟩
    exact (dasHandler_of_operands (eAddr_ne_zero h0) hl hm).trans
      ((onStoreCorrected_ok hu _).trans (dasHigh_of_store hh hv))
  · rintro rfl
    exact exec_faulted (exec_das 0#10 s) (dasHandler_zero _)
  · rintro rfl
    exact exec_faulted (exec_das 7#10 s) (dasHandler_seven _)
  · obtain ⟨m, hm⟩ := read16_readable (s := began s) hc (.inr (.inl he))
    have h0 : eAddr e ≠ 0#12 := by
      intro hz
      obtain ⟨hfirst, _⟩ := legal_iff.mp hc
      rw [hz] at he
      exact absurd he.1 (by rw [BitVec.toNat_ofNat]; omega)
    have hu := storeCorrected_erasable (s := began s) hc he (add l m)
    rw [eAddr_toNat] at hu
    have hbody := (dasHandler_of_operands h0 hl hm).trans
      ((onStoreCorrected_ok hu _).trans (dasHigh_reserved hhigh))
    exact ⟨l, m, hl, hm, exec_faulted (exec_das e s) hbody⟩

/-! ### Writing Z -/

/-- The correction touches bit 14 alone, which a program-counter value does not have (R18, R85). -/
theorem setWidth_correct (v : Word) : (correct v).setWidth 12 = v.setWidth 12 := by
  apply BitVec.eq_of_getLsbD_eq
  intro j hj
  rw [BitVec.getLsbD_setWidth, BitVec.getLsbD_setWidth, getLsbD_correct v j (by omega), if_neg (by omega)]

/-- A write to Z transfers to the low 12 bits of the value (R34). -/
theorem write_z (s : State) (v : Word) : memWrite s 5#12 v = .ok (s.setZ (v.setWidth 12)) := rfl

/-- A corrected store to Z transfers to the low 12 bits of the value (R34). -/
theorem storeCorrected_z (s : State) (v : Word) : storeCorrected s v 5#12 = .ok (s.setZ (v.setWidth 12)) := by
  rw [storeCorrected_of_narrow (wide_of_two_lt (by decide)), write_z, setWidth_correct]

theorem read16_z (s : State) : read16 s 5#12 = .ok (zext16 s.z) := read16_of_canonical (canonical_zext16 _) rfl

/-- One more than a program-counter value is the next one, modulo 4096 (R100). -/
theorem setWidth_add_one (z : Addr) : (add (zext16 z) 0x0001#16).setWidth 12 = z + 1#12 := by
  have hz := z.isLt
  have hw : (zext16 z).toNat = z.toNat := (BitVec.toNat_setWidth ..).trans (Nat.mod_eq_of_lt (by omega))
  apply BitVec.eq_of_toNat_eq
  rw [BitVec.toNat_setWidth, add_toNat, hw, BitVec.toNat_add, BitVec.toNat_ofNat, BitVec.toNat_ofNat]
  split <;> omega

/-- The skip of TS after the store at `e`, with A as R132 has it for an operand other than A. -/
theorem exec_ts_of_store (he : e ≠ 0#10) (ht : storeCorrected (began s) s.a (eAddr e) = .ok t) :
    exec (.ts e) s =
      .next (if ovf s.a = .none then t else { t with z := t.z + 1#12, a := indicator (ovf s.a) }) := by
  simp only [exec, execTs]
  refine runHandler_done ((onStoreCorrected_ok ht _).trans ?_)
  rw [if_neg he]
  exact (apply_ite Handled.done ..).symm

/-- Settles O51: the store sets Z, from which the skip of TS counts on; INCR reads the Z that has moved on already. -/
theorem writingZTransfers : Obligations.WritingZTransfers := by
  intro s
  have hts := exec_ts_of_store (e := 5#10) (by decide) (storeCorrected_z (began s) s.a)
  refine ⟨fun h => hts.trans (by rw [if_pos h]; rfl), fun h => hts.trans (by rw [if_neg h]; rfl), ?_⟩
  have hw : memWrite (began s) 5#12 (add (zext16 (began s).z) 0x0001#16) = .ok { began s with z := s.z + 2#12 } := by
    rw [write_z, setWidth_add_one, began, BitVec.add_assoc]
    rfl
  exact (exec_incr 5#10 s).trans (runHandler_done ((onRead16_ok (read16_z _) _).trans (onWrite_ok hw _)))

end Sys2Proof.Machine
end

section
/-! PROOFS. The transfer statements: what CA, CS, DCA and DCS load, what TS stores and when it skips, what the exchanges
swap, and where each of them stops. -/

namespace Sys2Proof.Machine

open Sys2Proof.Claims

variable {s t u : State} {i : Instr} {e : EField} {a low : Addr} {m x l q lo : Word} {c : Config} {f : AccessFault}

/-! ### Loads -/

theorem exec_ca (k : Addr) (s : State) : exec (.ca k) s = runHandler (.ca k) s (intoA k fun _ m => m) := rfl

theorem exec_cs (k : Addr) (s : State) : exec (.cs k) s = runHandler (.cs k) s (intoA k fun _ m => ~~~m) := rfl

/-- Settles O43: CA and CS are handlers into A, and their one access is the operand's. -/
theorem caAndCsLoad : Obligations.CaAndCsLoad := by
  intro s k hc
  refine ⟨decodeOfEncode (.ca k) rfl, decodeOfEncode (.cs k) rfl, fun hk => ?_,
    stopsAtOperand_of_read16 hc (exec_ca k s) fun _ => intoA_of_error,
    stopsAtOperand_of_read16 hc (exec_cs k s) fun _ => intoA_of_error⟩
  obtain ⟨m, hm⟩ := read16_readable (s := began s) hc hk
  exact ⟨m, hm, (exec_ca k s).trans (runHandler_done (onRead16_ok hm _)),
    (exec_cs k s).trans (runHandler_done (onRead16_ok hm _))⟩

/-! ### Double loads -/

/-- L takes what `intoL` says (R15, R34). -/
theorem onWrite_l (s : State) (v : Word) (k : State → Handled) :
    onWrite s lAddr v k = k (s.setL (intoL s.cfg v)) := onWrite_ok (write_l s v) k

/-- Q takes what `intoQ` says (R16, R34). -/
theorem onWrite_q (s : State) (v : Word) (k : State → Handled) :
    onWrite s qAddr v k = k (s.setQ (intoQ s.cfg v)) := onWrite_ok (write_q s v) k

/-- Address 0 is A, which always answers (R33). -/
theorem ne_zero_of_read16_error (h : read16 t a = .error f) : a ≠ 0#12 := by
  rintro rfl
  cases h

/-- The handler that DCA and DCS share: `f` of the low word goes into L, then `g` of the high word into A (R128). -/
def doubleLoad (low : Addr) (f : Config → Word → Word) (g : Word → Word) (t : State) : Handled :=
  onPair t low <| onRead16 t low fun lo => onWrite t lAddr (f t.cfg lo) (intoA (highAddr low) fun _ => g)

section
variable {f : Config → Word → Word} {g : Word → Word}

/-- With the low word in L, a double load goes on as a load of the high word. -/
theorem doubleLoad_of_low (h0 : low ≠ 0#12) (hlo : read16 t low = .ok lo) :
    doubleLoad low f g t = intoA (highAddr low) (fun _ => g) { t with l := intoL t.cfg (f t.cfg lo) } :=
  (onPair_of_ne h0 _).trans ((onRead16_ok hlo _).trans (onWrite_l t (f t.cfg lo) _))

theorem doubleLoad_of_error {r : AccessFault} (h : read16 t low = .error r) : doubleLoad low f g t = .raised r t :=
  (onPair_of_ne (ne_zero_of_read16_error h) _).trans (onRead16_error h _)

theorem doubleLoad_zero (t : State) :
    doubleLoad 0#12 f g t = .raised { code := .addressUnderflow, addr := 0#12 } t := rfl

/-- The stops of a double load before it has written anything (R163, R168, R169). -/
theorem doubleLoad_stops (hc : s.cfg.legal = true) (hi : exec i s = runHandler i s (doubleLoad low f g)) :
    (low = 0#12 → exec i s = .next (faulted (began s) i s.z .addressUnderflow 0#12)) ∧ StopsAtOperand i low s := by
  refine ⟨?_, stopsAtOperand_of_read16 hc hi fun _ => doubleLoad_of_error⟩
  rintro rfl
  exact exec_faulted hi (doubleLoad_zero _)

/-- Past the low word a double load completes or stops by what the high address is, and L keeps the low word
(R128, R129). -/
theorem exec_doubleLoad (hc : s.cfg.legal = true) (hi : exec i s = runHandler i s (doubleLoad low f g))
    (h0 : low ≠ 0#12) (hlo : read16 (began s) low = .ok lo) :
    (Readable s.cfg (low - 1#12) → ∃ h,
      read16 { began s with l := intoL s.cfg (f s.cfg lo) } (low - 1#12) = .ok h ∧
      exec i s = .next { began s with l := intoL s.cfg (f s.cfg lo), a := g h }) ∧
    (ReservedAt s.cfg (low - 1#12) → exec i s =
      .next (faulted { began s with l := intoL s.cfg (f s.cfg lo) } i s.z .reservedAddress (low - 1#12))) ∧
    (NoBankAt s.cfg (low - 1#12) → exec i s =
      .next (faulted { began s with l := intoL s.cfg (f s.cfg lo) } i s.z .unimplementedBank (low - 1#12))) := by
  have hbody := doubleLoad_of_low (f := f) (g := g) h0 hlo
  refine ⟨fun ha => ?_, fun ha => exec_faulted hi (hbody.trans (intoA_of_error (read16_reserved ha))),
    fun ha => exec_faulted hi (hbody.trans (intoA_of_error (read16_noBank hc ha)))⟩
  obtain ⟨h, hh⟩ := read16_readable (s := { began s with l := intoL s.cfg (f s.cfg lo) }) hc ha
  exact ⟨h, hh, hi.trans (runHandler_done (hbody.trans (onRead16_ok hh _)))⟩

end

theorem exec_dca (k : Addr) (s : State) :
    exec (.dca k) s = runHandler (.dca k) s (doubleLoad k (fun _ lo => lo) fun h => h) := rfl

theorem exec_dcs (k : Addr) (s : State) :
    exec (.dcs k) s = runHandler (.dcs k) s (doubleLoad k dcsLow (~~~·)) := rfl

/-- Settles O44: DCA is a double load of the two words as they are read. -/
theorem dcaLoadsDouble : Obligations.DcaLoadsDouble := by
  intro s k hc
  refine ⟨decodeOfEncode (.dca k) rfl, fun h0 hk => ?_, doubleLoad_stops hc (exec_dca k s)⟩
  obtain ⟨lo, hlo⟩ := read16_readable (s := began s) hc hk
  have hload := exec_doubleLoad hc (exec_dca k s) h0 hlo
  exact ⟨lo, hlo, hload⟩

theorem dcsLow_of_complement (h : c.dcsLowComplement = true) (lo : Word) : dcsLow c lo = ~~~lo := if_pos h

theorem dcsLow_of_plain (h : c.dcsLowComplement = false) (lo : Word) : dcsLow c lo = lo :=
  if_neg (ne_true_of_eq_false h)

/-- Settles O45: DCS is a double load of the complemented high word and of the low word as `dcsLow` has it. -/
theorem dcsLoadsComplement : Obligations.DcsLoadsComplement := by
  intro s k hc
  refine ⟨decodeOfEncode (.dcs k) rfl, fun h0 hk => ?_, doubleLoad_stops hc (exec_dcs k s)⟩
  obtain ⟨lo, hlo⟩ := read16_readable (s := began s) hc hk
  exact ⟨lo, _, hlo, fun h => congrArg (intoL s.cfg) (dcsLow_of_complement h lo),
    fun h => congrArg (intoL s.cfg) (dcsLow_of_plain h lo), exec_doubleLoad hc (exec_dcs k s) h0 hlo⟩

/-! ### TS -/

/-- The handler of TS: the store, then on overflow the skip and, unless E is A, the indicator (R132). -/
def tsHandler (e : EField) (t : State) : Handled :=
  onStoreCorrected t t.a (eAddr e) fun u =>
    if ovf t.a = .none then .done u
    else if e = 0#10 then .done (u.skip 1#12)
    else .done ((u.skip 1#12).setA (indicator (ovf t.a)))

theorem exec_ts (e : EField) (s : State) : exec (.ts e) s = runHandler (.ts e) s (tsHandler e) := rfl

/-- Without an overflow TS only stores. -/
theorem exec_ts_of_no_overflow (hv : ovf s.a = .none) (ht : storeCorrected (began s) s.a (eAddr e) = .ok t) :
    exec (.ts e) s = .next t :=
  (exec_ts e s).trans (runHandler_done ((onStoreCorrected_ok ht _).trans (if_pos hv)))

/-- On overflow TS A skips and leaves A as the store left it. -/
theorem exec_ts_a_of_overflow (hv : ovf s.a ≠ .none) (ht : storeCorrected (began s) s.a (eAddr 0#10) = .ok t) :
    exec (.ts 0#10) s = .next { t with z := t.z + 1#12 } :=
  (exec_ts 0#10 s).trans (runHandler_done ((onStoreCorrected_ok ht _).trans (if_neg hv)))

/-- A is wide, so that storing it at its own address changes nothing (R133). -/
theorem storeCorrected_a_self (s : State) : storeCorrected s s.a (eAddr 0#10) = .ok s := rfl

/-- TS A skips exactly when tag and sign of A disagree (R84, R133). -/
theorem exec_ts_a (s : State) :
    exec (.ts 0#10) s =
      .next { began s with z := if s.a.getLsbD 15 = s.a.getLsbD 14 then s.z + 1#12 else s.z + 2#12 } := by
  have hnone : ovf s.a = .none ↔ s.a.getLsbD 15 = s.a.getLsbD 14 := (ovf_eq_none_iff _).trans (canonical_iff _)
  by_cases hbits : s.a.getLsbD 15 = s.a.getLsbD 14
  · rw [if_pos hbits]
    exact exec_ts_of_no_overflow (hnone.mpr hbits) (storeCorrected_a_self (began s))
  · have hz : s.z + 2#12 = (began s).z + 1#12 := (BitVec.add_assoc s.z 1#12 1#12).symm
    rw [if_neg hbits, hz]
    exact exec_ts_a_of_overflow (mt hnone.mp hbits) (storeCorrected_a_self (began s))

/-- TS stops where its store does, with nothing written (R102, R132). -/
theorem exec_ts_of_store_error (h : storeCorrected (began s) s.a (eAddr e) = .error f) :
    exec (.ts e) s = .next (faulted (began s) (.ts e) s.z f.code f.addr) :=
  exec_faulted (exec_ts e s) (onStoreCorrected_error h _)

/-- Settles O46, by the store, the overflow of A, and whether the operand is A. -/
theorem tsStoresAndSkips : Obligations.TsStoresAndSkips := by
  intro s e hc
  refine ⟨decodeOfEncode (.ts e) rfl, fun he => ?_, ?_, ?_, fun he => exec_ts_of_store_error (write_reserved he)⟩
  · obtain ⟨u, hu⟩ := storeCorrected_writable (s := began s) hc he s.a
    refine ⟨u, hu, fun hv => exec_ts_of_no_overflow hv hu, fun hv h0 => ?_, ?_⟩
    · rw [exec_ts_of_store h0 hu, if_neg hv]
    · rintro hv rfl
      exact exec_ts_a_of_overflow hv hu
  · rintro rfl
    exact exec_ts_a s
  · rintro rfl
    exact exec_ts_of_store_error (e := 7#10) (write_zero (began s) _)

/-! ### Exchanges -/

/-- What the exchanges share: the operand is read, the register's value `x` is written over it, and `k` goes on with the
old operand (R134). -/
def exchange (a : Addr) (x : Word) (k : Word → State → Handled) (t : State) : Handled :=
  onRead16 t a fun m => onWrite t a x (k m)

section
variable {k : Word → State → Handled} {body : State → Handled}

theorem exchange_of_write (hm : read16 t a = .ok m) (hu : memWrite t a x = .ok u) : exchange a x k t = k m u :=
  (onRead16_ok hm _).trans (onWrite_ok hu _)

theorem exchange_of_error (h : read16 t a = .error f) : exchange a x k t = .raised f t := onRead16_error h _

/-- The zero register is read and then refuses the write (R166). -/
theorem exchange_seven (t : State) : exchange 7#12 x k t = .raised { code := .writeToZero, addr := 7#12 } t :=
  (onRead16_ok (read16_seven t) _).trans (onWrite_error (write_zero t _) _)

/-- The stops of an exchange, with nothing written (R163, R166). -/
theorem exchange_stops (hi : exec i s = runHandler i s body)
    (hb : body (began s) = exchange (eAddr e) x k (began s)) :
    (e = 7#10 → exec i s = .next (faulted (began s) i s.z .writeToZero 7#12)) ∧ StopsAtReserved i (eAddr e) s := by
  refine ⟨?_, stopsAtReserved_of_read16 hi fun _ h => hb.trans (exchange_of_error h)⟩
  rintro rfl
  exact exec_faulted hi (hb.trans (exchange_seven _))

/-- At a writable operand an exchange writes it and goes on, under the same configuration. -/
theorem exchange_writable (hc : t.cfg.legal = true) (ha : Writable t.cfg a) (hm : read16 t a = .ok m) :
    ∃ u, memWrite t a x = .ok u ∧ u.cfg = t.cfg ∧ exchange a x k t = k m u := by
  obtain ⟨u, hu⟩ := write_writable hc ha x
  obtain ⟨hcfg, _⟩ := write_flags hu
  exact ⟨u, hu, hcfg, exchange_of_write hm hu⟩

/-- An exchange whose last step puts the old operand into the register completes at a writable operand. -/
theorem exec_exchange {put : Word → State → State} (hc : s.cfg.legal = true) (hi : exec i s = runHandler i s body)
    (hb : body (began s) = exchange a x (fun m u => .done (put m u)) (began s)) (ha : Writable s.cfg a)
    (hm : read16 (began s) a = .ok m) :
    ∃ u, memWrite (began s) a x = .ok u ∧ u.cfg = s.cfg ∧ exec i s = .next (put m u) := by
  obtain ⟨u, hu, hcfg, hdone⟩ := exchange_writable (t := began s) hc ha hm
  exact ⟨u, hu, hcfg, hi.trans (runHandler_done (hb.trans hdone))⟩

end

/-- The handler of XCH (R135). -/
def xchHandler (a : Addr) (t : State) : Handled :=
  exchange a (storedForm t.cfg a t.a) (fun m u => .done (u.setA m)) t

/-- The handler of LXCH (R136). -/
def lxchHandler (a : Addr) (t : State) : Handled :=
  onRead16 t a fun m => onRead16 t lAddr fun l => onWrite t a l fun u => onWrite u lAddr m .done

/-- The handler of QXCH (R137). -/
def qxchHandler (a : Addr) (t : State) : Handled :=
  onRead16 t a fun m => onRead16 t qAddr fun q => onStoreCorrected t q a fun u => onWrite u qAddr m .done

theorem exec_xch_admitted (h : s.cfg.admitUndescribed = true) :
    exec (.xch e) s = runHandler (.xch e) s (xchHandler (eAddr e)) := gated_admitted h

theorem exec_lxch_admitted (h : s.cfg.admitUndescribed = true) :
    exec (.lxch e) s = runHandler (.lxch e) s (lxchHandler (eAddr e)) := gated_admitted h

theorem exec_qxch_admitted (h : s.cfg.admitUndescribed = true) :
    exec (.qxch e) s = runHandler (.qxch e) s (qxchHandler (eAddr e)) := gated_admitted h

/-- Q is always readable (R33). -/
theorem read16_q (t : State) : ∃ q, read16 t qAddr = .ok q := ⟨_, read16_of_read (v := t.q) rfl⟩

/-- LXCH exchanges the operand with L. -/
theorem lxchHandler_eq_exchange (hl : read16 t lAddr = .ok l) (a : Addr) :
    lxchHandler a t = exchange a l (fun m u => .done (u.setL (intoL u.cfg m))) t := by
  simp only [lxchHandler, exchange, onRead16_ok hl, onWrite_l]

/-- QXCH exchanges the operand with Q, which is stored in its corrected form. -/
theorem qxchHandler_eq_exchange (hq : read16 t qAddr = .ok q) (a : Addr) :
    qxchHandler a t = exchange a (storedForm t.cfg a q) (fun m u => .done (u.setQ (intoQ u.cfg m))) t := by
  simp only [qxchHandler, exchange, onRead16_ok hq, onWrite_q]
  rfl

/-- Settles O47: the three exchanges, by the value each writes over the operand and the register that takes it. -/
theorem exchangesSwap : Obligations.ExchangesSwap := by
  intro s e hc hadm
  obtain ⟨l, hl⟩ := read16_l (began s)
  obtain ⟨q, hq⟩ := read16_q (began s)
  have hbl := lxchHandler_eq_exchange hl (eAddr e)
  have hbq := qxchHandler_eq_exchange hq (eAddr e)
  have hix := exec_xch_admitted (e := e) hadm
  have hil := exec_lxch_admitted (e := e) hadm
  have hiq := exec_qxch_admitted (e := e) hadm
  obtain ⟨hx7, hxres⟩ := exchange_stops hix rfl
  obtain ⟨hl7, hlres⟩ := exchange_stops hil hbl
  obtain ⟨hq7, hqres⟩ := exchange_stops hiq hbq
  refine ⟨decodeOfEncode (.xch e) rfl, decodeOfEncode (.lxch e) rfl, decodeOfEncode (.qxch e) rfl, fun he => ?_,
    fun h7 => ⟨hx7 h7, hl7 h7, hq7 h7⟩, hxres, hlres, hqres⟩
  obtain ⟨m, hm⟩ := read16_readable (s := began s) hc (readable_of_writable he)
  obtain ⟨u, hu, _, hxch⟩ := exec_exchange hc hix rfl he hm
  obtain ⟨v, hv, hvcfg, hlxch⟩ := exec_exchange hc hil hbl he hm
  obtain ⟨w, hw, hwcfg, hqxch⟩ := exec_exchange hc hiq hbq he hm
  rw [hvcfg] at hlxch
  rw [hwcfg] at hqxch
  exact ⟨m, l, q, u, v, w, hm, hl, hq, hu, hxch, hv, hlxch, hw, hqxch⟩

/-! ### DXCH -/

/-- The handler of DXCH: L with the low word, then XCH with the high word (R138). -/
def dxchHandler (low : Addr) (t : State) : Handled :=
  onPair t low <|
    onRead16 t low fun lo => onRead16 t lAddr fun l => onWrite t low l fun u =>
      onWrite u lAddr lo (xchHandler (highAddr low))

theorem exec_dxch_admitted (h : s.cfg.admitUndescribed = true) :
    exec (.dxch e) s = runHandler (.dxch e) s (dxchHandler (eAddr e)) := gated_admitted h

/-- A pair that does not start at 0 is exchanged low word first. -/
theorem dxchHandler_eq_exchange (h0 : low ≠ 0#12) (hl : read16 t lAddr = .ok l) :
    dxchHandler low t =
      exchange low l (fun lo u => xchHandler (highAddr low) (u.setL (intoL u.cfg lo))) t := by
  simp only [dxchHandler, exchange, onPair_of_ne h0, onRead16_ok hl, onWrite_l]

theorem dxchHandler_zero (t : State) :
    dxchHandler 0#12 t = .raised { code := .addressUnderflow, addr := 0#12 } t := rfl

/-- An erasable cell is not A. -/
theorem ne_zero_of_erasable (hc : c.legal = true) (h : ErasableAt c a) : a ≠ 0#12 := by
  obtain ⟨hfirst, _⟩ := legal_iff.mp hc
  rintro rfl
  rw [ErasableAt, BitVec.toNat_ofNat] at h
  omega

/-- Settles O48, by the two addresses of the pair: both writable, field 0, field 7, a reserved high word below an
erasable low one, and a reserved low word. -/
theorem dxchSwapsDouble : Obligations.DxchSwapsDouble := by
  intro s e hc hadm
  have hi := exec_dxch_admitted (e := e) hadm
  obtain ⟨l, hl⟩ := read16_l (began s)
  have hbody (h0 : eAddr e ≠ 0#12) := dxchHandler_eq_exchange h0 hl
  refine ⟨decodeOfEncode (.dxch e) rfl, fun h0 he hhigh => ?_, ?_, fun h7 => ?_, fun hhigh he => ?_, fun hres => ?_⟩
  · obtain ⟨lo, hlo⟩ := read16_readable (s := began s) hc (readable_of_writable he)
    obtain ⟨u, hu, hcfg, hlow⟩ := exchange_writable (t := began s) (x := l) hc he hlo
    have hcu : u.cfg = s.cfg := hcfg
    have hfirst := (hbody (eAddr_ne_zero h0)).trans hlow
    rw [hcu] at hfirst
    obtain ⟨h, hh⟩ := read16_readable (s := u.setL (intoL s.cfg lo)) (hcu ▸ hc)
      (hcu ▸ readable_of_writable hhigh)
    obtain ⟨w, hw, _, hdone⟩ := exchange_writable (t := u.setL (intoL s.cfg lo)) (hcu ▸ hc) (hcu ▸ hhigh) hh
    exact ⟨lo, l, h, u, _, w, hlo, hl, hu, rfl, hh, hw,
      hi.trans (runHandler_done (hfirst.trans hdone))⟩
  · rintro rfl
    exact exec_faulted hi (dxchHandler_zero _)
  · have h0 : eAddr e ≠ 0#12 := eAddr_ne_zero (by rw [h7]; decide)
    exact (exchange_stops hi (hbody h0)).1 h7
  · obtain ⟨lo, hlo⟩ := read16_readable (s := began s) hc (.inr (.inl he))
    have hu := write_erasable (s := began s) (v := l) hc he
    rw [eAddr_toNat] at hu
    have hstop := (hbody (ne_zero_of_erasable hc he)).trans
      ((exchange_of_write hlo hu).trans (exchange_of_error (read16_reserved hhigh)))
    exact ⟨lo, l, hlo, hl, exec_faulted hi hstop⟩
  · have h0 : eAddr e ≠ 0#12 := ne_zero_of_read16_error (read16_reserved (s := s) hres)
    exact (exchange_stops hi (hbody h0)).2 hres

end Sys2Proof.Machine
end

section
/-! PROOFS. The control statements: the call and the return, the counting skip of CCS, the branches to fixed memory, the
two forms of INDEX, and the instructions that set one flag. -/

namespace Sys2Proof.Machine

open Sys2Proof.Claims

variable {s t : State} {i : Instr} {e : EField} {k f : Addr} {v : Word}

/-! ### Call and return -/

theorem linkAddr_of_q (h : s.cfg.linkReg = .q) : linkAddr s.cfg = qAddr := by rw [linkAddr, h]

theorem linkAddr_of_l (h : s.cfg.linkReg = .l) : linkAddr s.cfg = lAddr := by rw [linkAddr, h]

/-- A write of a canonical value to Q stores it as it is, whether Q is wide or not. -/
theorem write_q_of_canonical (hv : canonical v = true) (s : State) : memWrite s qAddr v = .ok (s.setQ v) := by
  rw [write_q, narrow_of_canonical hv, ite_self]

theorem exec_tc (k : Addr) (s : State) : exec (.tc k) s = runHandler (.tc k) s fun t =>
    onWrite t (linkAddr t.cfg) (zext16 t.z) fun u => .done (u.setZ k) := rfl

/-- TC goes to its target once the address of the next word is in the link register. -/
theorem exec_tc_of_write (hw : memWrite (began s) (linkAddr s.cfg) (zext16 (s.z + 1#12)) = .ok t) :
    exec (.tc k) s = .next { t with z := k } :=
  (exec_tc k s).trans (runHandler_done (onWrite_ok hw _))

theorem exec_tc_of_q (h : s.cfg.linkReg = .q) :
    exec (.tc k) s = .next { began s with q := zext16 (s.z + 1#12), z := k } :=
  exec_tc_of_write (linkAddr_of_q h ▸ write_q_of_canonical (canonical_zext16 _) _)

theorem exec_tc_of_l (h : s.cfg.linkReg = .l) :
    exec (.tc k) s = .next { began s with l := zext16 (s.z + 1#12), z := k } :=
  exec_tc_of_write (linkAddr_of_l h ▸ write_l_of_canonical (canonical_zext16 _) _)

/-- The addresses of the implied literals are the ones TC cannot name (R55). -/
theorem decode_tc (h2 : k ≠ 2#12) (h3 : k ≠ 3#12) (h4 : k ≠ 4#12) (h6 : k ≠ 6#12) :
    decode false (0#3 ++ k) = .tc k :=
  decodeOfEncode (.tc k) (by simp [Instr.wf, h2, h3, h4, h6])

/-- Settles O49: a program-counter value is canonical, so either link register takes it as it is. -/
theorem tcCalls : Obligations.TcCalls := fun _ _ => ⟨decode_tc, exec_tc_of_q, exec_tc_of_l⟩

theorem onRead_ok {a : Addr} (h : memRead s a = .ok v) (k : Word → Handled) : onRead s a k = k v := by
  simp only [onRead, h]

theorem exec_ret (s : State) : exec .ret s = runHandler .ret s fun t =>
    onRead t (linkAddr t.cfg) fun v => .done (t.setZ (v.setWidth 12)) := rfl

/-- RETURN goes to the low 12 bits of what the link register reads. -/
theorem exec_ret_of_read (hr : memRead (began s) (linkAddr s.cfg) = .ok v) :
    exec .ret s = .next { began s with z := v.setWidth 12 } :=
  (exec_ret s).trans (runHandler_done (onRead_ok hr _))

theorem exec_ret_of_q (h : s.cfg.linkReg = .q) : exec .ret s = .next { began s with z := s.q.setWidth 12 } :=
  exec_ret_of_read (linkAddr_of_q h ▸ rfl)

theorem exec_ret_of_l (h : s.cfg.linkReg = .l) : exec .ret s = .next { began s with z := s.l.setWidth 12 } :=
  exec_ret_of_read (linkAddr_of_l h ▸ rfl)

/-- The low 12 bits of a program-counter value are all of it (R18). -/
theorem setWidth_zext16 (z : Addr) : (zext16 z).setWidth 12 = z := BitVec.setWidth_setWidth_of_le z (by decide)

/-- Settles O50, by the link register; TC leaves the address of its next word there. -/
theorem returnGoesBack : Obligations.ReturnGoesBack := by
  refine ⟨decodeOfEncode .ret rfl, fun s => ⟨exec_ret_of_q, exec_ret_of_l, fun k => ?_⟩⟩
  cases h : s.cfg.linkReg with
  | q => exact ⟨_, _, exec_tc_of_q h, rfl, exec_ret_of_q h, setWidth_zext16 _⟩
  | l => exact ⟨_, _, exec_tc_of_l h, rfl, exec_ret_of_l h, setWidth_zext16 _⟩

/-! ### CCS -/

/-- The complement of a value with bit 15 set is its magnitude (R83). -/
theorem toNat_magnitude (v : Word) : (if v.getLsbD 15 then ~~~v else v).toNat = (val16 v).natAbs := by
  unfold val16
  split
  · rw [Int.natAbs_neg, Int.natAbs_natCast]
  · rw [Int.natAbs_natCast]

/-- Counting down stops at +0, as subtraction of natural numbers does. -/
theorem toNat_countdown (m : Word) : (if m = 0#16 then 0#16 else m - 1#16).toNat = m.toNat - 1 := by
  split
  next h => rw [h]; rfl
  next h =>
    have hm := m.isLt
    have h0 : m.toNat ≠ 0 := fun hz => h (BitVec.eq_of_toNat_eq hz)
    rw [BitVec.toNat_sub, BitVec.toNat_ofNat]
    omega

theorem ccsMagnitude_toNat (v : Word) : (ccsMagnitude v).toNat = (val16 v).natAbs - 1 :=
  (toNat_countdown _).trans (congrArg (· - 1) (toNat_magnitude v))

/-- A negative integer has bit 15 set (R83). -/
theorem bit15_of_val16_neg (h : val16 v < 0) : v.getLsbD 15 = true := by
  by_contra h15
  rw [val16, if_neg h15] at h
  omega

/-- A positive integer has bit 15 clear (R83). -/
theorem bit15_of_val16_pos (h : 0 < val16 v) : v.getLsbD 15 = false := by
  by_contra h15
  rw [val16, if_pos (eq_true_of_ne_false h15)] at h
  omega

/-- Away from the two zeros, bit 15 decides how far CCS skips. -/
theorem ccsSkip_of_val16_ne_zero (h : val16 v ≠ 0) : ccsSkip v = if v.getLsbD 15 then 2#12 else 0#12 := by
  obtain ⟨hplus, hminus⟩ := not_or.mp (mt (val16_eq_zero_iff v).mpr h)
  rw [ccsSkip, if_neg hplus, if_neg hminus]

theorem ccsSkip_of_negative (h : val16 v < 0) : ccsSkip v = 2#12 := by
  rw [ccsSkip_of_val16_ne_zero h.ne, if_pos (bit15_of_val16_neg h)]

theorem ccsSkip_of_positive (h : 0 < val16 v) : ccsSkip v = 0#12 := by
  rw [ccsSkip_of_val16_ne_zero h.ne', if_neg (ne_true_of_eq_false (bit15_of_val16_pos h))]

theorem exec_ccs (e : EField) (s : State) : exec (.ccs e) s = runHandler (.ccs e) s fun t =>
    onRead16 t (eAddr e) fun v => .done ((t.setA (ccsMagnitude v)).skip (ccsSkip v)) := rfl

/-- The skip of CCS counts on from the Z that has moved on already, so that it is one more from the CCS itself. -/
theorem exec_ccs_of_read16 (hv : read16 (began s) (eAddr e) = .ok v) :
    exec (.ccs e) s = .next { began s with a := ccsMagnitude v, z := s.z + (1#12 + ccsSkip v) } := by
  rw [← BitVec.add_assoc]
  exact (exec_ccs e s).trans (runHandler_done (onRead16_ok hv _))

/-- Settles O52: A counts the magnitude down, and each kind of value has its own skip. -/
theorem ccsCountsAndSkips : Obligations.CcsCountsAndSkips := by
  intro s e hc
  refine ⟨decodeOfEncode (.ccs e) rfl, fun he => ?_,
    stopsAtReserved_of_read16 (exec_ccs e s) fun _ h => onRead16_error h _⟩
  obtain ⟨v, hv⟩ := read16_readable (s := began s) hc he
  have hexec := exec_ccs_of_read16 hv
  refine ⟨v, ccsMagnitude v, hv, ccsMagnitude_toNat v, ?_, ?_, fun hneg => ?_, fun hpos => ?_⟩
  · rintro rfl
    exact hexec
  · rintro rfl
    exact hexec
  · rw [ccsSkip_of_negative hneg] at hexec
    exact hexec
  · rw [ccsSkip_of_positive hpos] at hexec
    exact hexec

/-! ### Branches to fixed memory -/

theorem exec_tcf (f : Addr) (s : State) : exec (.tcf f) s = .next { began s with z := f } := rfl

/-- A branch changes Z alone, and only when its test holds (R145, R146). -/
theorem exec_branch {p : State → Prop} [DecidablePred p]
    (hi : exec i s = runHandler i s fun t => if p t then .done (t.setZ f) else .done t) :
    (p (began s) → exec i s = .next { began s with z := f }) ∧ (¬p (began s) → exec i s = .next (began s)) :=
  ⟨fun h => hi.trans (runHandler_done (if_pos h)), fun h => hi.trans (runHandler_done (if_neg h))⟩

theorem exec_bzf (f : Addr) (s : State) : exec (.bzf f) s = runHandler (.bzf f) s fun t =>
    if t.a = 0x0000#16 ∨ t.a = 0xFFFF#16 then .done (t.setZ f) else .done t := rfl

theorem exec_bzmf (f : Addr) (s : State) : exec (.bzmf f) s = runHandler (.bzmf f) s fun t =>
    if t.a = 0x0000#16 ∨ t.a.getLsbD 15 = true then .done (t.setZ f) else .done t := rfl

/-- Settles O53: the test of each branch on A, taken and not. -/
theorem branchesToFixed : Obligations.BranchesToFixed := by
  intro s f
  obtain ⟨hbzf, hbzfNot⟩ := exec_branch (exec_bzf f s)
  obtain ⟨hbzmf, hbzmfNot⟩ := exec_branch (exec_bzmf f s)
  refine ⟨fun hf => ?_, exec_tcf f s, hbzf, fun hplus hminus => hbzfNot (not_or.mpr ⟨hplus, hminus⟩), hbzmf,
    fun hplus h15 => hbzmfNot (not_or.mpr ⟨hplus, ne_true_of_eq_false h15⟩)⟩
  have hwf := decide_eq_true hf
  exact ⟨decodeOfEncode (.tcf f) hwf, decodeOfEncode (.bzf f) hwf, decodeOfEncode (.bzmf f) hwf⟩

/-! ### INDEX -/

theorem exec_index_handler (e : EField) (s : State) : exec (.index e) s = runHandler (.index e) s fun t =>
    onRead16 t (eAddr e) fun m => .done (t.setBias m) := rfl

theorem exec_indexK_handler (k : Addr) (s : State) : exec (.indexK k) s = runHandler (.indexK k) s fun t =>
    onRead16 t k fun m => .done ((t.setBias m).setExt true) := rfl

/-- Settles O54: the one access of either form is the operand's. -/
theorem indexSetsTheBias : Obligations.IndexSetsTheBias := by
  intro s e k hc
  refine ⟨fun he => decodeOfEncode (.index e) (bne_iff_ne.mpr he), decodeOfEncode (.indexK k) rfl, fun he => ?_,
    fun hk => ?_, stopsAtReserved_of_read16 (exec_index_handler e s) fun _ h => onRead16_error h _,
    stopsAtOperand_of_read16 hc (exec_indexK_handler k s) fun _ h => onRead16_error h _⟩
  · obtain ⟨v, hv⟩ := read16_readable (s := began s) hc he
    exact ⟨v, hv, exec_index hv⟩
  · obtain ⟨v, hv⟩ := read16_readable (s := began s) hc hk
    exact ⟨v, hv, exec_indexK hv⟩

/-! ### The flags -/

/-- Settles O55, by the meaning of each. -/
theorem impliedInstructionsSetFlags : Obligations.ImpliedInstructionsSetFlags :=
  ⟨decodeOfEncode .extend rfl, decodeOfEncode .relint rfl, decodeOfEncode .inhint rfl,
    fun s => ⟨exec_extend s, exec_relint s, exec_inhint s⟩⟩

end Sys2Proof.Machine
end

section
/-! PROOFS. The exception statements: what the record of a faulting cycle says, and what the host's write and the
observation port answer. -/

namespace Sys2Proof.Machine

open Sys2Proof.Claims

variable {s t : State} {i : Instr} {a : Addr} {v : Word} {c : Config} {f : AccessFault} {r : FaultRecord}
  {inputs : List Addr}

/-! ### The operand address of a fault -/

/-- What a code says of the operand address recorded with it (R163, R166, R168, R169). No access fault has one of the
remaining codes (R164, R165, R167). -/
def Deserves (c : Config) (a : Addr) : FaultCode → Prop
  | .reservedAddress => ReservedAt c a
  | .writeToZero => a = 7#12
  | .unimplementedBank => NoBankAt c a
  | .addressUnderflow => a = 0#12
  | .undefinedEncoding => False
  | .unimplemented _ => False
  | .writeToFixed => False

theorem Deserves.of_code_eq {code code' : FaultCode} (h : Deserves c a code) (hcode : code = code') :
    Deserves c a code' := hcode ▸ h

/-- The operand clauses of a record, read off its code; the codes that no address deserves are not its code (R161). -/
theorem Deserves.record {p : Prop} (hd : Deserves c a r.code) (ha : r.addr = some a) :
    (r.code = .reservedAddress → ∃ b, r.addr = some b ∧ ReservedAt c b) ∧
      (r.code = .writeToZero → r.addr = some 7#12) ∧
      (r.code = .unimplementedBank → ∃ b, r.addr = some b ∧ NoBankAt c b) ∧
      (r.code = .addressUnderflow → r.addr = some 0#12) ∧ (∀ name, r.code = .unimplemented name → p) ∧
      r.code ≠ .undefinedEncoding ∧ r.code ≠ .writeToFixed :=
  ⟨fun h => ⟨a, ha, hd.of_code_eq h⟩, fun h => ha.trans (congrArg some (hd.of_code_eq h)),
    fun h => ⟨a, ha, hd.of_code_eq h⟩, fun h => ha.trans (congrArg some (hd.of_code_eq h)),
    fun _ h => (hd.of_code_eq h).elim, hd.of_code_eq, hd.of_code_eq⟩

theorem deserves_of_read_error (h : memRead s a = .error f) : Deserves s.cfg f.addr f.code := by
  obtain ⟨rfl, ⟨hcode, ha⟩ | ⟨hcode, ha⟩⟩ := read_error h
  · exact hcode ▸ ha
  · exact hcode ▸ ha

/-- The operand of a write lies below fixed memory, so that WriteToFixed is not among its faults (R167). -/
theorem deserves_of_write_error (ha : a.toNat < 1024) (h : memWrite s a v = .error f) :
    Deserves s.cfg f.addr f.code := by
  obtain ⟨rfl, ⟨hcode, h7⟩ | ⟨hcode, hres⟩ | ⟨_, hfixed⟩⟩ := write_error h
  · exact hcode ▸ h7
  · exact hcode ▸ hres
  · omega

/-- A fetch that faults does so as Read does at Z (R36, R98). -/
theorem read_error_of_fetch (h : fetch s = .error f) : memRead s s.z = .error f := by
  cases hread : memRead s s.z with
  | ok v => simp [fetch, read16, hread] at h
  | error g => simpa [fetch, read16, hread] using h

/-! ### The record of a faulting cycle -/

/-- A machine of the configuration `c` that no fault has stopped. -/
def Running (c : Config) (s : State) : Prop := s.cfg = c ∧ s.fault = none

theorem closed_running (c : Config) : Closed (Running c) where
  setA h _ := h
  setZ h _ := h
  write := by
    intro s t a v ⟨hcfg, hfault⟩ hw
    obtain ⟨hcfg', _, _, _, hfault'⟩ := write_flags hw
    exact ⟨hcfg'.trans hcfg, hfault'.trans hfault⟩

theorem faultsIn_running (c : Config) : FaultsIn (Running c) fun f => Deserves c f.addr f.code where
  read := by
    rintro s a f ⟨rfl, _⟩ h
    exact deserves_of_read_error h
  write := by
    rintro s a v f ⟨rfl, _⟩ ha h
    exact deserves_of_write_error ha h
  pair := rfl

/-- A meaning that leaves a record in FAULT left that of an access fault or the Unimplemented one (R102, R161). -/
theorem exec_fault_cases (hf : s.fault = none) (h : exec i s = .next t) (hr : t.fault = some r) :
    (∃ f : AccessFault, Deserves s.cfg f.addr f.code ∧ r = handlerRecord i s f) ∨
      ∃ name, r = unimplementedRecord i name s ∧ t = s.takeFault r := by
  have hstart : Running s.cfg s.beginExec := ⟨rfl, hf⟩
  rcases exec_cases (closed_running s.cfg) (faultsIn_running s.cfg) hstart (fun _ _ h _ => h) (fun _ _ h _ => h)
    (fun _ _ h _ => h) h with ⟨_, hnone⟩ | ⟨f, u, _, hd, rfl⟩ | ⟨name, rfl⟩
  · rw [hnone] at hr
    cases hr
  · cases hr
    exact .inl ⟨f, hd, rfl⟩
  · cases hr
    exact .inr ⟨name, rfl, rfl⟩

/-- The record of a cycle that faults: at the fetch, in the handler, or as Unimplemented at decode. The word that a
handler records, the encoding of its instruction, is the word fetched, since encoding undoes decoding (R60, R161). -/
theorem step_fault_cases (h : step s = .next t) (hr : t.fault = some r) :
    (∃ f : AccessFault, fetch s = .error f ∧ Deserves s.cfg s.z f.code ∧
        r = { code := f.code, fetchAddr := s.z, word := none, addr := some s.z } ∧ t = { s with fault := some r }) ∨
      (∃ (w : Word15) (f : AccessFault), fetch s = .ok w ∧ Deserves s.cfg f.addr f.code ∧
        r = { code := f.code, fetchAddr := s.z, word := some w, addr := some f.addr }) ∨
      ∃ w name, fetch s = .ok w ∧
        r = { code := .unimplemented name, fetchAddr := s.z, word := some w, addr := none } ∧
        t = { s with bias := 0#16, fault := some r } := by
  obtain ⟨hf, ⟨f, hfetch, rfl⟩ | ⟨w, hfetch, hexec⟩⟩ := step_cases h
  · cases hr
    have hread := read_error_of_fetch hfetch
    have hd := deserves_of_read_error hread
    obtain ⟨haddr, _⟩ := read_error hread
    exact .inl ⟨f, hfetch, haddr ▸ hd, by rw [haddr], rfl⟩
  · obtain ⟨hword, _⟩ := encodeOfDecode s.ext w
    rcases exec_fault_cases (s := s.setBias 0#16) hf hexec hr with ⟨f, hd, rfl⟩ | ⟨name, rfl, ht⟩
    · exact .inr (.inl ⟨w, f, hfetch, hd, by rw [handlerRecord, hword]; rfl⟩)
    · exact .inr (.inr ⟨w, name, hfetch, by rw [unimplementedRecord, hword]; rfl, ht⟩)

/-- Settles O27, by where the cycle faults; a record with an operand address has a code that the address deserves. -/
theorem faultRecordIsPrecise : Obligations.FaultRecordIsPrecise := by
  intro s t r _ _ h hr
  rcases step_fault_cases h hr with ⟨f, hfetch, hd, rfl, ht⟩ | ⟨w, f, hfetch, hd, rfl⟩ | ⟨w, name, hfetch, rfl, ht⟩
  · exact ⟨rfl, by simp [hfetch], fun _ _ => ⟨rfl, rfl, ht⟩, hd.record rfl⟩
  · exact ⟨rfl, by simp [hfetch], by simp [hfetch], hd.record rfl⟩
  · exact ⟨rfl, by simp [hfetch], by simp [hfetch], nofun, nofun, nofun, nofun, fun _ _ => ⟨rfl, ht⟩, nofun, nofun⟩

/-! ### The host's write -/

/-- The validator answers `erasable` at erasable cells only (R32, R33). -/
theorem erasableAt_of_region (h : region c a = .erasable) : ErasableAt c a := by
  rcases Nat.lt_or_ge 7 a.toNat with h7 | h7
  · rw [region_of_gt_seven h7] at h
    split_ifs at h with hfirst hlast
    exact ⟨by omega, hlast⟩
  · rcases register_cases h7 with rfl | rfl | rfl | rfl | rfl | rfl | rfl | rfl <;> cases h

theorem hostWrite_erasable (hc : s.cfg.legal = true) (hf : s.fault = none) (hi : a ∈ inputs)
    (ha : ErasableAt s.cfg a) :
    hostWrite inputs s a v = some (s.setMem (s.mem.set a.toNat (narrow s.cfg v))) := by
  simp only [hostWrite, if_pos (⟨hf, hi, region_erasable hc ha⟩ : _ ∧ _ ∧ _), write_erasable hc ha]

/-- A write is refused when the machine is stopped, or when its address is no erasable member of HOST_INPUT_SET
(R178; log 15). -/
theorem hostWrite_refused (h : ¬(s.fault = none ∧ a ∈ inputs ∧ ErasableAt s.cfg a)) :
    hostWrite inputs s a v = none :=
  if_neg fun ⟨hf, hi, hr⟩ => h ⟨hf, hi, erasableAt_of_region hr⟩

/-! ### The observation port -/

theorem observe_of_read (h : memRead s a = .ok v) : observe s (.cell a) = .value v := by
  simp only [observe, h]

theorem observe_of_read_error (h : memRead s a = .error f) : observe s (.cell a) = .unreadable := by
  simp only [observe, h]

/-- An address that is not readable is reserved or outside the bank (R32). -/
theorem read_not_readable (hc : s.cfg.legal = true) (h : ¬Readable s.cfg a) : ∃ f, memRead s a = .error f := by
  rcases address_cases s.cfg a with ha | ha | ha | ha | ha
  · exact absurd (.inl ha) h
  · exact ⟨_, read_reserved ha⟩
  · exact absurd (.inr (.inl ha)) h
  · exact absurd (.inr (.inr ha)) h
  · exact ⟨_, read_noBank hc ha⟩

/-- Settles O32: a host write is a Write behind three conditions, and the port shows what Read answers. -/
theorem hostPorts : Obligations.HostPorts := by
  refine ⟨fun inputs s a v hc => ⟨hostWrite_erasable hc, fun hor => hostWrite_refused fun ⟨_, hi, ha⟩ => ?_,
    fun hf => hostWrite_refused fun ⟨hnone, _⟩ => hf hnone⟩, fun s a hc => ⟨fun ha => ?_, fun ha => ?_, rfl, rfl, rfl,
    rfl⟩⟩
  · exact hor.elim (fun hni => hni hi) fun hna => hna ha
  · obtain ⟨v, hv⟩ := read_readable hc ha
    exact ⟨v, hv, observe_of_read hv⟩
  · obtain ⟨f, hf⟩ := read_not_readable hc ha
    exact observe_of_read_error hf

end Sys2Proof.Machine
end

section
/-! PROOFS. The frames of the instructions, by the addresses each may write; that every cycle ends; reset and the sample
words. -/

namespace Sys2Proof.Machine

open Sys2Proof.Claims

section

variable {s t u : State} {i : Instr} {a : Addr} {v : Word} {W : List Addr} {body : State → Handled}

/-! ### Writing to listed addresses only -/

/-- `t` comes from `s` by writes to the addresses in `W`, A written as address 0, and by updates of Z, the flags and
FAULT: what those may leave changed. An address up to 7 is a register and no cell (R32, R41). -/
structure Frame (W : List Addr) (s t : State) : Prop where
  cells : ∀ n : Nat, (∀ a ∈ W, 7 < a.toNat → a.toNat ≠ n) → t.mem.get n = s.mem.get n
  bankCell : KeepsBankCellBut W s t
  a : 0#12 ∉ W → t.a = s.a
  l : 1#12 ∉ W → t.l = s.l
  q : 2#12 ∉ W → t.q = s.q
  cfg : t.cfg = s.cfg

/-- A frame speaks of memory, A, L, Q, the bank cell and the configuration only. -/
theorem Frame.of_eq (h : Frame W s u) (hmem : t.mem = u.mem) (ha : t.a = u.a) (hl : t.l = u.l) (hq : t.q = u.q)
    (hbb : t.bb = u.bb) (hcfg : t.cfg = u.cfg) : Frame W s t where
  cells := by rw [hmem]; exact h.cells
  bankCell := fun hW => hbb.trans (h.bankCell hW)
  a := by rw [ha]; exact h.a
  l := by rw [hl]; exact h.l
  q := by rw [hq]; exact h.q
  cfg := hcfg.trans h.cfg

theorem Frame.refl (W : List Addr) (s : State) : Frame W s s :=
  ⟨fun _ _ => rfl, fun _ => rfl, fun _ => rfl, fun _ => rfl, fun _ => rfl, rfl⟩

theorem Frame.began (W : List Addr) (s : State) : Frame W s s.beginExec :=
  (Frame.refl W s).of_eq rfl rfl rfl rfl rfl rfl

theorem Frame.setZ (h : Frame W s u) (z : Addr) : Frame W s (u.setZ z) := h.of_eq rfl rfl rfl rfl rfl rfl

theorem Frame.setBias (h : Frame W s u) (v : Word) : Frame W s (u.setBias v) := h.of_eq rfl rfl rfl rfl rfl rfl

theorem Frame.setExt (h : Frame W s u) (b : Bool) : Frame W s (u.setExt b) := h.of_eq rfl rfl rfl rfl rfl rfl

theorem Frame.setIe (h : Frame W s u) (b : Bool) : Frame W s (u.setIe b) := h.of_eq rfl rfl rfl rfl rfl rfl

theorem Frame.takeFault (h : Frame W s u) (r : FaultRecord) : Frame W s (u.takeFault r) :=
  h.of_eq rfl rfl rfl rfl rfl rfl

theorem Frame.setA (h : Frame W s u) (h0 : 0#12 ∈ W) (v : Word) : Frame W s (u.setA v) :=
  ⟨h.cells, h.bankCell, fun hne => absurd h0 hne, h.l, h.q, h.cfg⟩

/-- A write to a register leaves every cell, one to a cell leaves the others (R34). -/
theorem write_cell (hw : memWrite s a v = .ok t) {n : Nat} (hn : 7 < a.toNat → a.toNat ≠ n) :
    t.mem.get n = s.mem.get n := by
  rcases write_cases hw with ⟨_, rfl⟩ | ⟨_, rfl⟩ | ⟨_, rfl⟩ | ⟨_, rfl⟩ | ⟨_, rfl⟩ | ⟨_, rfl⟩ | ⟨_, rfl⟩ |
    ⟨h7, _, rfl⟩
  on_goal 8 => exact Memory.get_set_of_ne _ _ (hn h7).symm
  all_goals rfl

theorem Frame.write (h : Frame W s u) (ha : a ∈ W) (hw : memWrite u a v = .ok t) : Frame W s t := by
  obtain ⟨hA, hL, hQ, _, hBb⟩ := write_registers hw
  obtain ⟨hcfg, _⟩ := write_flags hw
  have hne : ∀ {b : Addr}, b ∉ W → a ≠ b := fun hb hab => hb (hab ▸ ha)
  exact {
    cells := fun n hn => (write_cell hw (hn a ha)).trans (h.cells n hn)
    bankCell := fun hW => by
      obtain ⟨h3, h4, h6⟩ := hW a ha
      exact (hBb h3 h4 h6).trans (h.bankCell hW)
    a := fun h0 => (hA (hne h0)).trans (h.a h0)
    l := fun h1 => (hL (hne h1)).trans (h.l h1)
    q := fun h2 => (hQ (hne h2)).trans (h.q h2)
    cfg := hcfg.trans h.cfg }

/-- A, L and Q are neither cells nor the bank cell, so that only the other addresses written count for these. -/
theorem Frame.keepsBut (h : Frame W s t) {stored : List Addr} (hW : ∀ a ∈ W, 2 < a.toNat → a ∈ stored) :
    KeepsCellsBut stored s t ∧ KeepsBankCellBut stored s t := by
  refine ⟨fun n hn => h.cells n fun a ha h7 => hn a (hW a ha (by omega)), fun hs => h.bankCell fun a ha => ?_⟩
  rcases Nat.lt_or_ge 2 a.toNat with h2 | h2
  · exact hs a (hW a ha h2)
  · refine ⟨?_, ?_, ?_⟩ <;> rintro rfl <;> simp at h2

/-! ### Handlers -/

/-- A handler that writes only to addresses in `W`, whether it completes or faults. -/
def Handled.Within (W : List Addr) (s : State) (h : Handled) : Prop := h.Keeps (Frame W s) fun _ => True

theorem within_onRead16 {k : Word → Handled} (h : Frame W s u) (hk : ∀ v, (k v).Within W s) :
    (onRead16 u a k).Within W s := keeps_onRead16 (FaultsIn.trivial _) h hk

theorem within_onWrite {k : State → Handled} (h : Frame W s u) (ha : a ∈ W)
    (hk : ∀ t, Frame W s t → (k t).Within W s) : (onWrite u a v k).Within W s :=
  onWrite_spec (fun t ht => hk t (h.write ha ht)) fun _ _ => ⟨h, ⟨⟩⟩

theorem within_onStoreCorrected {k : State → Handled} (h : Frame W s u) (ha : a ∈ W)
    (hk : ∀ t, Frame W s t → (k t).Within W s) : (onStoreCorrected u v a k).Within W s :=
  onStoreCorrected_spec (fun t ht => hk t (h.write ha ht)) fun _ _ => ⟨h, ⟨⟩⟩

theorem within_onPair {k : Handled} (h : Frame W s u) (hk : k.Within W s) : (onPair u a k).Within W s :=
  keeps_onPair (FaultsIn.trivial _) h fun _ => hk

/-- A meaning with a handler answers, in a state framed by what the handler writes (R102). -/
theorem exec_frame_of_runHandler (hi : exec i s = runHandler i s body) (hb : (body s.beginExec).Within W s) :
    ∃ t, exec i s = .next t ∧ Frame W s t := by
  cases hh : body s.beginExec with
  | done t =>
    rw [hh] at hb
    exact ⟨t, hi.trans (runHandler_done hh), hb⟩
  | raised f t =>
    rw [hh] at hb
    obtain ⟨ht, _⟩ := hb
    exact ⟨_, hi.trans (runHandler_raised hh), ht.takeFault _⟩

/-- The same for one that runs only when admitted, and is Unimplemented otherwise (R9). -/
theorem exec_frame_of_gated {name : UnimplementedName} (hi : exec i s = gated i name s body)
    (hb : (body s.beginExec).Within W s) : ∃ t, exec i s = .next t ∧ Frame W s t := by
  cases h : s.cfg.admitUndescribed with
  | true => exact exec_frame_of_runHandler (hi.trans (gated_admitted h)) hb
  | false => exact ⟨_, hi.trans (gated_refused h), (Frame.refl W s).takeFault _⟩

theorem within_intoA {f : State → Word → Word} (h : Frame W s u) (h0 : 0#12 ∈ W) : (intoA a f u).Within W s :=
  within_onRead16 h fun _ => keeps_done (h.setA h0 _)

theorem within_inPlace {f : Word → Word} (h : Frame W s u) (ha : a ∈ W) : (inPlace a f u).Within W s :=
  within_onRead16 h fun _ => within_onWrite h ha fun _ ht => keeps_done ht

theorem within_doubleLoad {f : Config → Word → Word} {g : Word → Word} (h : Frame W s u) (h0 : 0#12 ∈ W)
    (hl : lAddr ∈ W) : (doubleLoad a f g u).Within W s :=
  within_onPair h <| within_onRead16 h fun _ => within_onWrite h hl fun _ ht => within_onRead16 ht fun _ =>
    keeps_done (ht.setA h0 _)

theorem within_branch {p : Prop} [Decidable p] {z : Addr} (h : Frame W s u) :
    Handled.Within W s (if p then .done (u.setZ z) else .done u) := by
  split_ifs
  · exact keeps_done (h.setZ _)
  · exact keeps_done h

/-! ### The addresses an instruction may write -/

/-- Where a meaning may write: A as address 0, the link register, L, Q, and the operand addresses it stores to. -/
@[simp] def destinations (c : Config) : Instr → List Addr
  | .tc _ => [linkAddr c]
  | .ccs _ | .ca _ | .cs _ | .ad _ | .mask _ | .msu _ | .su _ => [0#12]
  | .incr e | .aug e | .dim e => [eAddr e]
  | .ts e | .ads e | .xch e => [eAddr e, 0#12]
  | .lxch e => [eAddr e, lAddr]
  | .qxch e => [eAddr e, qAddr]
  | .dca _ | .dcs _ | .mp _ => [0#12, lAddr]
  | .das e | .dxch e => [eAddr e, highAddr (eAddr e), 0#12, lAddr]
  | _ => []

/-- Every meaning answers a next state, in which only the instruction's destinations are written (R41, R97, R102). -/
theorem exec_frame (i : Instr) (s : State) : ∃ t, exec i s = .next t ∧ Frame (destinations s.cfg i) s t := by
  have h0 := Frame.began (destinations s.cfg i) s
  cases i with
  | tc k =>
    exact exec_frame_of_runHandler (exec_tc k s) (within_onWrite h0 (by simp) fun _ h => keeps_done (h.setZ _))
  | ret =>
    exact exec_frame_of_runHandler (exec_ret s) (keeps_onRead (FaultsIn.trivial _) h0 fun _ => keeps_done (h0.setZ _))
  | relint => exact ⟨_, exec_relint s, h0.setIe _⟩
  | inhint => exact ⟨_, exec_inhint s, h0.setIe _⟩
  | extend => exact ⟨_, exec_extend s, h0.setExt _⟩
  | tcf f => exact ⟨_, exec_tcf f s, h0.setZ _⟩
  | bzf f => exact exec_frame_of_runHandler (exec_bzf f s) (within_branch h0)
  | bzmf f => exact exec_frame_of_runHandler (exec_bzmf f s) (within_branch h0)
  | index e =>
    exact exec_frame_of_runHandler (exec_index_handler e s) (within_onRead16 h0 fun _ => keeps_done (h0.setBias _))
  | indexK k =>
    exact exec_frame_of_runHandler (exec_indexK_handler k s)
      (within_onRead16 h0 fun _ => keeps_done ((h0.setBias _).setExt _))
  | ccs e =>
    exact exec_frame_of_runHandler (exec_ccs e s)
      (within_onRead16 h0 fun _ => keeps_done ((h0.setA (by simp) _).setZ _))
  | ad k => exact exec_frame_of_runHandler (exec_ad k s) (within_intoA h0 (by simp))
  | mask k => exact exec_frame_of_runHandler (exec_mask k s) (within_intoA h0 (by simp))
  | msu e => exact exec_frame_of_runHandler (exec_msu e s) (within_intoA h0 (by simp))
  | ca k => exact exec_frame_of_runHandler (exec_ca k s) (within_intoA h0 (by simp))
  | cs k => exact exec_frame_of_runHandler (exec_cs k s) (within_intoA h0 (by simp))
  | su e =>
    exact exec_frame_of_gated (body := intoA (eAddr e) fun t m => add t.a (~~~m)) rfl (within_intoA h0 (by simp))
  | incr e => exact exec_frame_of_runHandler (exec_incr e s) (within_inPlace h0 (by simp))
  | aug e => exact exec_frame_of_runHandler (exec_aug e s) (within_inPlace h0 (by simp))
  | dim e => exact exec_frame_of_runHandler (exec_dim e s) (within_inPlace h0 (by simp))
  | dca k => exact exec_frame_of_runHandler (exec_dca k s) (within_doubleLoad h0 (by simp) (by simp))
  | dcs k => exact exec_frame_of_runHandler (exec_dcs k s) (within_doubleLoad h0 (by simp) (by simp))
  | mp k =>
    exact exec_frame_of_runHandler (exec_mp k s) (within_onRead16 h0 fun _ =>
      within_onWrite h0 (by simp) fun _ h => keeps_done (h.setA (by simp) _))
  | ads e =>
    exact exec_frame_of_runHandler (exec_ads e s) (within_onRead16 h0 fun _ =>
      within_onStoreCorrected (h0.setA (by simp) _) (by simp) fun _ h => keeps_done h)
  | ts e =>
    refine exec_frame_of_runHandler (exec_ts e s) (within_onStoreCorrected h0 (by simp) fun _ h => ?_)
    split_ifs
    · exact keeps_done h
    · exact keeps_done (h.setZ _)
    · exact keeps_done ((h.setZ _).setA (by simp) _)
  | das e =>
    exact exec_frame_of_runHandler (exec_das e s) (within_onPair h0 <|
      within_onRead16 h0 fun _ => within_onRead16 h0 fun _ =>
      within_onStoreCorrected h0 (by simp) fun _ h => within_onRead16 h fun _ =>
      within_onStoreCorrected h (by simp) fun _ h =>
      within_onWrite (h.setA (by simp) _) (by simp) fun _ h => keeps_done h)
  | xch e =>
    exact exec_frame_of_gated (body := xchHandler (eAddr e)) rfl (within_onRead16 h0 fun _ =>
      within_onStoreCorrected h0 (by simp) fun _ h => keeps_done (h.setA (by simp) _))
  | lxch e =>
    exact exec_frame_of_gated (body := lxchHandler (eAddr e)) rfl (within_onRead16 h0 fun _ =>
      within_onRead16 h0 fun _ => within_onWrite h0 (by simp) fun _ h =>
      within_onWrite h (by simp) fun _ h => keeps_done h)
  | qxch e =>
    exact exec_frame_of_gated (body := qxchHandler (eAddr e)) rfl (within_onRead16 h0 fun _ =>
      within_onRead16 h0 fun _ => within_onStoreCorrected h0 (by simp) fun _ h =>
      within_onWrite h (by simp) fun _ h => keeps_done h)
  | dxch e =>
    exact exec_frame_of_gated (body := dxchHandler (eAddr e)) rfl (within_onPair h0 <|
      within_onRead16 h0 fun _ => within_onRead16 h0 fun _ =>
      within_onWrite h0 (by simp) fun _ h => within_onWrite h (by simp) fun _ h => within_onRead16 h fun _ =>
      within_onStoreCorrected h (by simp) fun _ h => keeps_done (h.setA (by simp) _))
  | resume | read _ | write _ | rand _ | wand _ | ror _ | wor _ | rxor _ | edrupt _ | dv _ =>
    exact ⟨_, rfl, (Frame.refl _ s).takeFault _⟩

theorem frame_of_exec (h : exec i s = .next t) : Frame (destinations s.cfg i) s t := by
  obtain ⟨u, hu, hf⟩ := exec_frame i s
  rw [h] at hu
  cases hu
  exact hf

end

/-! ### Every cycle ends -/

/-- Settles O21: every meaning answers, and a fetch that faults leaves its record in a next state. -/
theorem everyCycleEnds : Obligations.EveryCycleEnds := by
  have hexec : ∀ (i : Instr) (s : State), ∃ t, exec i s = .next t := fun i s =>
    (exec_frame i s).imp fun _ h => h.1
  refine ⟨hexec, fun s hf => ?_⟩
  cases hw : fetch s with
  | ok w => rw [step_of_fetch hf hw]; exact hexec _ _
  | error f => exact ⟨_, step_of_fetch_error hf hw⟩

/-- Settles O20: the cycle looks at FAULT first, and step(n) stops at a cycle without a next state. -/
theorem stoppedMachineStays : Obligations.StoppedMachineStays := by
  intro s r hr
  have hstep : step s = .fault (.stopped r) := by simp only [step, hr]
  refine ⟨hstep, fun n => ?_⟩
  cases n with
  | zero => rfl
  | succ n => simp only [stepN, hstep]

/-! ### The four frames -/

/-- Settles O57: these write nowhere but to A, and the branches, TCF, INDEX and EXTEND not there either. -/
theorem frameWithoutStores : Obligations.FrameWithoutStores := by
  intro i s t e k hi h
  have hf := frame_of_exec h
  have hdest : (∀ a ∈ destinations s.cfg i, a = 0#12) ∧ i ≠ .relint ∧ i ≠ .inhint := by
    revert i
    simp
  obtain ⟨hW, hr, hn⟩ := hdest
  obtain ⟨hcells, hbb⟩ := hf.keepsBut (stored := []) fun a ha h2 => by simp [hW a ha] at h2
  refine ⟨hcells, hf.l fun hl => by simpa using hW _ hl, hf.q fun hq => by simpa using hW _ hq, hbb (by simp),
    exec_ie_of_ne hr hn h, hf.cfg, fun hi' => hf.a ?_⟩
  revert i
  simp

/-- Settles O58: TC and RETURN complete under either link register, so each next state is written out. -/
theorem frameOfControl : Obligations.FrameOfControl := by
  intro i s t k hi h
  simp only [List.mem_cons, List.not_mem_nil, or_false] at hi
  rcases hi with rfl | rfl | rfl | rfl
  · cases hlink : s.cfg.linkReg with
    | q => rw [exec_tc_of_q hlink] at h; cases h; simp [KeepsCellsBut, Claims.began]
    | l => rw [exec_tc_of_l hlink] at h; cases h; simp [KeepsCellsBut, Claims.began]
  · cases hlink : s.cfg.linkReg with
    | q => rw [exec_ret_of_q hlink] at h; cases h; simp [KeepsCellsBut, Claims.began]
    | l => rw [exec_ret_of_l hlink] at h; cases h; simp [KeepsCellsBut, Claims.began]
  · rw [exec_relint] at h
    cases h
    simp [KeepsCellsBut]
  · rw [exec_inhint] at h
    cases h
    simp [KeepsCellsBut]

/-- Settles O59: these write at E and to A, and INCR, AUG and DIM at E alone. -/
theorem frameOfStores : Obligations.FrameOfStores := by
  intro i s t e hi h
  have hf := frame_of_exec h
  have hdest : (∀ a ∈ destinations s.cfg i, a = eAddr e ∨ a = 0#12) ∧ i ≠ .relint ∧ i ≠ .inhint := by
    revert i
    simp
  obtain ⟨hW, hr, hn⟩ := hdest
  obtain ⟨hcells, hbb⟩ := hf.keepsBut (stored := [eAddr e]) fun a ha h2 => by
    rcases hW a ha with rfl | rfl
    · simp
    · simp at h2
  refine ⟨hcells, fun hne => hf.l fun hl => ?_, fun hne => hf.q fun hq => ?_, hbb, exec_ie_of_ne hr hn h, hf.cfg,
    fun hi' hne => hf.a ?_⟩
  · simpa [hne.symm] using hW _ hl
  · simpa [hne.symm] using hW _ hq
  · revert i
    simp [hne.symm]

/-- Settles O60: the double loads and MP write A and L, the double stores the two words of the pair too, the single
exchanges E and their register. -/
theorem frameOfPairs : Obligations.FrameOfPairs := by
  intro s t e k
  refine ⟨fun i hi h => ?_, fun i hi h => ?_, fun i hi h => ?_⟩
  · have hf := frame_of_exec h
    have hdest : destinations s.cfg i = [0#12, lAddr] ∧ i ≠ .relint ∧ i ≠ .inhint := by
      revert i
      simp
    obtain ⟨hW, hr, hn⟩ := hdest
    rw [hW] at hf
    obtain ⟨hcells, hbb⟩ := hf.keepsBut (stored := []) (by simp [lAddr])
    exact ⟨hcells, hf.q (by simp [lAddr]), hbb (by simp), exec_ie_of_ne hr hn h, hf.cfg⟩
  · have hf := frame_of_exec h
    have hdest : destinations s.cfg i = [eAddr e, highAddr (eAddr e), 0#12, lAddr] ∧ i ≠ .relint ∧ i ≠ .inhint := by
      revert i
      simp
    obtain ⟨hW, hr, hn⟩ := hdest
    rw [hW] at hf
    obtain ⟨hcells, hbb⟩ := hf.keepsBut (stored := [eAddr e, eAddr e - 1#12]) (by simp [lAddr, highAddr])
    exact ⟨hcells, fun hlow hhigh => hf.q (by simp [lAddr, highAddr, hlow.symm, hhigh.symm]), hbb,
      exec_ie_of_ne hr hn h, hf.cfg⟩
  · have hf := frame_of_exec h
    simp only [List.mem_cons, List.not_mem_nil, or_false] at hi
    rcases hi with rfl | rfl
    · obtain ⟨hcells, hbb⟩ := hf.keepsBut (stored := [eAddr e]) (by simp [lAddr])
      exact ⟨hcells, hbb, fun hne => hf.a (by simp [lAddr, hne.symm]),
        fun _ hne => hf.q (by simp [lAddr, hne.symm]), nofun, exec_ie_of_ne (by simp) (by simp) h, hf.cfg⟩
    · obtain ⟨hcells, hbb⟩ := hf.keepsBut (stored := [eAddr e]) (by simp [qAddr])
      exact ⟨hcells, hbb, fun hne => hf.a (by simp [qAddr, hne.symm]), nofun,
        fun _ hne => hf.l (by simp [qAddr, hne.symm]), exec_ie_of_ne (by simp) (by simp) h, hf.cfg⟩

/-! ### Reset and the sample words -/

theorem inv_initial {c : Config} (hc : c.legal = true) (entryPc : Addr) : Inv (State.initial c entryPc) :=
  have hzero : canonical 0#16 = true := by decide
  ⟨hc, rfl, nofun, nofun, BitVec.zero_and, fun _ => hzero, fun _ => hzero⟩

/-- Loading words in the bank into empty memory keeps the invariant (R28, R183). -/
theorem Inv.loadImage {s : State} (h : Inv s) {image : List Word} (hle : image.length ≤ s.cfg.fixedSize) :
    Inv (s.setMem (loadWords [] s.cfg.fixedBase image)) where
  config := h.config
  canonicalMemory := loadWords_wf rfl _ _
  cells c hc := by
    rcases mem_loadWords hc with hnil | ⟨hfirst, hlast, _⟩
    · cases hnil
    · exact .inr ⟨hfirst, by simp only [State.setMem_cfg]; omega⟩
  narrowForm c hc := by
    rcases mem_loadWords hc with hnil | ⟨_, _, w, hw⟩
    · cases hnil
    · rw [hw]
      exact canonical_sext16 w
  bankCell := h.bankCell
  narrowL := h.narrowL
  narrowQ := h.narrowQ

/-- Settles O29: a boot is the loader on the initial state, and an image it takes fits the bank. -/
theorem invariantAtReset : Obligations.InvariantAtReset := by
  refine ⟨inv_initial (by decide) _, fun c image entryPc s hc hboot => ?_⟩
  rcases Nat.lt_or_ge c.fixedSize image.length with hlt | hle
  · rw [boot_of_lt entryPc hlt] at hboot
    cases hboot
  · rw [boot_of_le entryPc hle] at hboot
    cases hboot
    exact (inv_initial hc entryPc).loadImage hle

/-- Settles O31: the empty image fits every bank and loads no word. -/
theorem resetState : Obligations.ResetState :=
  ⟨boot_of_le 1024#12 (Nat.zero_le _), rfl, rfl, rfl, rfl, rfl⟩

/-- Settles O3, word by word. -/
theorem sampleWordsDecode : Obligations.SampleWordsDecode :=
  ⟨rfl, rfl, rfl, rfl, rfl, rfl, rfl, rfl, rfl, rfl⟩

end Sys2Proof.Machine
end
